-- ==== Sys2Proof/Word.lean ====
section
/-! DEFINITION. The widths of the machine: bytes, machine words, instruction words, register numbers. -/

namespace Sys2Proof

/-- The addressable unit, 8 bits (spec/92_eei_decisions.md D4). -/
abbrev Byte := BitVec 8

/-- One machine word, `XLEN = 32` bits (R6 of spec/00_scope.md, decision D1; log entry 1): a register slot, the
reservation register, the program counter, an address, the unit of every data access. -/
abbrev Word := BitVec 32

/-- One instruction word, `ILEN = 32` bits (R7 of spec/00_scope.md, R49 of spec/30_encoding.md). It is kept apart from
`Word` by name only (spec/90_conflicts.md C8). -/
abbrev IWord := BitVec 32

/-- A register number, 0 to 31: every value of a 5-bit field names a slot (R14 of spec/10_state.md). -/
abbrev RegIdx := Fin 32

end Sys2Proof
end

