-- ==== Sys2Proof/Config.lean ====
section
/-! DEFINITION. What a platform fixes: the open parameters of R10 (spec/00_scope.md), gathered in one record of plain
data, `Platform`, that every state carries and no step changes. A statement about every state is a statement about
every platform. -/

namespace Sys2Proof

/-- `ENDIAN` (R10 of spec/00_scope.md, R33 of spec/20_memory.md, decision D4). -/
inductive Endian where
  | little
  | big
  deriving DecidableEq, Repr

/-- `MISALIGNED_POLICY` (R35 of spec/20_memory.md, decision D5): what the memory port does with a data address that is
not a multiple of 4. -/
inductive MisalignedPolicy where
  | refuse
  | bytewise
  | trap
  deriving DecidableEq, Repr

/-- `FETCH_POLICY` (R46 of spec/20_memory.md, decision D11): how the boundary obtains the word when the program counter
is not a multiple of 4. -/
inductive FetchPolicy where
  | refuse
  | bytewise
  deriving DecidableEq, Repr

/-- The kind of a request on the memory port: the two operations of R31 and R32 (spec/20_memory.md). -/
inductive AccessKind where
  | read
  | write
  deriving DecidableEq, Repr

/-- A stretch of plain-memory bytes `base .. base + size - 1` that the port admits for reading or for writing: the model's
form of `MEM_ADMIT` (R10 of spec/00_scope.md, R40 of spec/20_memory.md, decisions D6, D27, D28; log entry 6). -/
structure Region where
  base : Nat
  size : Nat
  canRead : Bool
  canWrite : Bool
  deriving DecidableEq, Repr

/-- One entry of the interrupt vector table: the reserved flag and the handler function (R114 of spec/60_exceptions.md).
Handlers are opaque external functions (decision D20), so a number stands for one. -/
structure VectorEntry where
  reserved : Bool
  handler : Nat
  deriving DecidableEq, Repr

/-- A part of the trap frame: a register slot or the saved program counter (R16 of spec/10_state.md, R121 of
spec/60_exceptions.md). -/
inductive FrameItem where
  | x (i : RegIdx)
  | pc
  deriving DecidableEq, Repr

/-- The open parameters of R10 (spec/00_scope.md). `VT_LEN` is `vt.length`. `X0_ENTRY` is no field here: it is the content
of slot 0 of the state the boundary is entered in. -/
structure Platform where
  endian : Endian
  misaligned : MisalignedPolicy
  fetch : FetchPolicy
  regions : List Region
  /-- `EXC_ILLEGAL` (R21 of spec/10_state.md, R108 of spec/60_exceptions.md, decision D14). -/
  excIllegal : Nat
  /-- `VT` (R114 of spec/60_exceptions.md, decision D20). -/
  vt : List VectorEntry
  /-- `CTX_VIEW` (R112 of spec/60_exceptions.md, decision D21): the parts of the frame the exception handler is shown. -/
  ctxView : List FrameItem
  deriving DecidableEq, Repr

/-- The defaults: little-endian (D4), `refuse` (D5, D11), `EXC_ILLEGAL = 2` (the value D14 suggests), and, where the spec
gives no default, the model's own (DESIGN CHOICE, log entries 6, 8, 9): every byte of the address space admitted, an empty
vector table, an empty context view. -/
def Platform.default : Platform where
  endian := .little
  misaligned := .refuse
  fetch := .refuse
  regions := [{ base := 0, size := 2 ^ 32, canRead := true, canWrite := true }]
  excIllegal := 2
  vt := []
  ctxView := []

end Sys2Proof
end

