-- ==== Sys2Proof/Syntax.lean ====
section
/-! DEFINITION. The eleven instructions (spec/opcode_table.json), with their register operands. -/

namespace Sys2Proof

/-- The eleven operation names (R1 of spec/00_scope.md), the keys of the `FUNCT5` table (R8). -/
inductive Op where
  | amoadd
  | amoswap
  | lr
  | sc
  | amoxor
  | amoor
  | amoand
  | amomin
  | amomax
  | amominu
  | amomaxu
  deriving DecidableEq, Repr

/-- An instruction: one constructor per row of the opcode table. The operands are the register fields of R51
(spec/30_encoding.md): `rd` the slot written, `rs1` the slot that holds the address, `rs2` the slot that holds the value;
LR has no `rs2` (R56). There is no immediate (R53), and bits 14:12 and 26:25 are in no field (R52). -/
inductive Instr where
  | amoadd (rd rs1 rs2 : RegIdx)
  | amoswap (rd rs1 rs2 : RegIdx)
  | lr (rd rs1 : RegIdx)
  | sc (rd rs1 rs2 : RegIdx)
  | amoxor (rd rs1 rs2 : RegIdx)
  | amoor (rd rs1 rs2 : RegIdx)
  | amoand (rd rs1 rs2 : RegIdx)
  | amomin (rd rs1 rs2 : RegIdx)
  | amomax (rd rs1 rs2 : RegIdx)
  | amominu (rd rs1 rs2 : RegIdx)
  | amomaxu (rd rs1 rs2 : RegIdx)
  deriving DecidableEq, Repr

/-- The operation an instruction performs. -/
def Instr.op : Instr → Op
  | .amoadd _ _ _ => .amoadd
  | .amoswap _ _ _ => .amoswap
  | .lr _ _ => .lr
  | .sc _ _ _ => .sc
  | .amoxor _ _ _ => .amoxor
  | .amoor _ _ _ => .amoor
  | .amoand _ _ _ => .amoand
  | .amomin _ _ _ => .amomin
  | .amomax _ _ _ => .amomax
  | .amominu _ _ _ => .amominu
  | .amomaxu _ _ _ => .amomaxu

/-- The destination register, the one slot an instruction writes (R27 of spec/10_state.md). -/
def Instr.rd : Instr → RegIdx
  | .amoadd rd _ _ | .amoswap rd _ _ | .lr rd _ | .sc rd _ _ | .amoxor rd _ _ | .amoor rd _ _ | .amoand rd _ _
  | .amomin rd _ _ | .amomax rd _ _ | .amominu rd _ _ | .amomaxu rd _ _ => rd

/-- The address register (R53 of spec/30_encoding.md). -/
def Instr.rs1 : Instr → RegIdx
  | .amoadd _ r _ | .amoswap _ r _ | .lr _ r | .sc _ r _ | .amoxor _ r _ | .amoor _ r _ | .amoand _ r _
  | .amomin _ r _ | .amomax _ r _ | .amominu _ r _ | .amomaxu _ r _ => r

/-- The value register, where the instruction has one: LR does not (R56 of spec/30_encoding.md). -/
def Instr.rs2? : Instr → Option RegIdx
  | .lr _ _ => none
  | .amoadd _ _ r | .amoswap _ _ r | .sc _ _ r | .amoxor _ _ r | .amoor _ _ r | .amoand _ _ r
  | .amomin _ _ r | .amomax _ _ r | .amominu _ _ r | .amomaxu _ _ r => some r

/-- Why the unit refuses a word (R66 of spec/40_decode_dispatch.md). -/
inductive UnhandledReason where
  /-- The opcode field is not `0b0101111` (R58 of spec/30_encoding.md, R70 of spec/40_decode_dispatch.md). -/
  | notAtomic
  /-- The subcode is none of the eleven (R57 of spec/30_encoding.md, R71 of spec/40_decode_dispatch.md). -/
  | unknownSubcode
  deriving DecidableEq, Repr

/-- Why the byte-level decoder refuses a list of bytes. -/
inductive DecodeReject where
  /-- Fewer than the four bytes of an instruction word (R49 of spec/30_encoding.md). -/
  | truncated
  /-- Four bytes whose word is not one of the eleven instructions. -/
  | unhandled (r : UnhandledReason)
  deriving DecidableEq, Repr

end Sys2Proof
end

