-- ==== Sys2Proof/WellFormed.lean ====
section
/-! DEFINITION. Checks on terms. An instruction is well formed by its types: each operand is a `RegIdx`, and every register
number 0 to 31 is valid (R14 of spec/10_state.md; R51 of spec/30_encoding.md, "all values 0-31 are structurally valid"),
so there is no check on `Instr` that a term could fail. The checks below are those on a platform's open parameters. -/

namespace Sys2Proof

/-- A region of plain memory is not empty and lies inside the `2^XLEN`-byte address space (R23 of spec/10_state.md). -/
def Region.wf (r : Region) : Bool := decide (0 < r.size) && decide (r.base + r.size ≤ 2 ^ 32)

/-- The checks on a platform: every region inside the address space, and a context view that shows no part of the frame
twice (a projection, R112 of spec/60_exceptions.md). -/
def Platform.wf (p : Platform) : Bool := p.regions.all Region.wf && decide p.ctxView.Nodup

end Sys2Proof
end

