-- ==== Sys2Proof/Decode.lean ====
section
/-! DEFINITION. The instruction decoder of spec/30_encoding.md and spec/40_decode_dispatch.md, total on words and on
bytes, and an encoder written from the same table. -/

namespace Sys2Proof

/-! ### Byte order (R33 of spec/20_memory.md) -/

/-- Byte `k` of a word: bits `8k+7 : 8k`. -/
def byteOf (v : Word) (k : Nat) : Byte := v.extractLsb' (8 * k) 8

/-- The four bytes of a word in the order of their addresses: under little-endian the byte at offset `k` holds bits
`8k+7 : 8k` (R33, decision D4); big-endian is the other value of `ENDIAN` (R10). -/
def wordToBytes : Endian → Word → List Byte
  | .little, v => [byteOf v 0, byteOf v 1, byteOf v 2, byteOf v 3]
  | .big, v => [byteOf v 3, byteOf v 2, byteOf v 1, byteOf v 0]

/-- The word whose four bytes stand at offsets 0, 1, 2, 3. -/
def bytesToWord : Endian → Byte → Byte → Byte → Byte → Word
  | .little, b0, b1, b2, b3 => b3 ++ b2 ++ b1 ++ b0
  | .big, b0, b1, b2, b3 => b0 ++ b1 ++ b2 ++ b3

/-! ### Fields -/

/-- `OPC_AMO` (R7 of spec/00_scope.md). -/
def opcAmo : BitVec 7 := 0b0101111

/-- The `FUNCT5` table (R8 of spec/00_scope.md, R54 of spec/30_encoding.md): LR's value is the source's, the other ten are
the RISC-V "A" values that decision D2 supplies (log entry 2). -/
def funct5 : Op → BitVec 5
  | .amoadd => 0b00000
  | .amoswap => 0b00001
  | .lr => 0b00010
  | .sc => 0b00011
  | .amoxor => 0b00100
  | .amoor => 0b01000
  | .amoand => 0b01100
  | .amomin => 0b10000
  | .amomax => 0b10100
  | .amominu => 0b11000
  | .amomaxu => 0b11100

/-- The eleven operations. -/
def Op.all : List Op :=
  [.amoadd, .amoswap, .lr, .sc, .amoxor, .amoor, .amoand, .amomin, .amomax, .amominu, .amomaxu]

/-- The opcode field, `w[6:0]` (R51 of spec/30_encoding.md). -/
def opcodeOf (w : IWord) : BitVec 7 := w.extractLsb' 0 7

/-- `is_atomic` (R67 of spec/40_decode_dispatch.md): the low seven bits equal `0b0101111`. -/
def isAtomic (w : IWord) : Bool := opcodeOf w == opcAmo

/-- The register number in the five bits of `w` from bit `lo` up (R51 of spec/30_encoding.md). -/
def regField (w : IWord) (lo : Nat) : RegIdx := (w.extractLsb' lo 5).toFin

/-- What `decode_fields` returns (R68 of spec/40_decode_dispatch.md): four values (spec/90_conflicts.md C1). -/
structure Fields where
  rd : RegIdx
  rs1 : RegIdx
  rs2 : RegIdx
  subcode : BitVec 5
  deriving DecidableEq, Repr

/-- `decode_fields` (R68): the slices of R51 (spec/30_encoding.md); it validates nothing. -/
def decodeFields (w : IWord) : Fields where
  rd := regField w 7
  rs1 := regField w 15
  rs2 := regField w 20
  subcode := w.extractLsb' 27 5

/-! ### Decoding -/

/-- The operation whose `FUNCT5` entry equals the subcode (R69 of spec/40_decode_dispatch.md), if there is one. -/
def opOfSubcode (f : BitVec 5) : Option Op := Op.all.find? (fun o => funct5 o == f)

/-- The instruction made of an operation and its register fields; LR drops `rs2` (R56 of spec/30_encoding.md). -/
def Instr.build (o : Op) (rd rs1 rs2 : RegIdx) : Instr :=
  match o with
  | .amoadd => .amoadd rd rs1 rs2
  | .amoswap => .amoswap rd rs1 rs2
  | .lr => .lr rd rs1
  | .sc => .sc rd rs1 rs2
  | .amoxor => .amoxor rd rs1 rs2
  | .amoor => .amoor rd rs1 rs2
  | .amoand => .amoand rd rs1 rs2
  | .amomin => .amomin rd rs1 rs2
  | .amomax => .amomax rd rs1 rs2
  | .amominu => .amominu rd rs1 rs2
  | .amomaxu => .amomaxu rd rs1 rs2

/-- The decoder and dispatcher of R65 (spec/40_decode_dispatch.md), total on all `2^32` words: the opcode first
(`NotAtomic`), then the subcode (`UnknownSubcode`), and no other test (R120 of spec/60_exceptions.md). -/
def decodeWord (w : IWord) : Except UnhandledReason Instr :=
  if isAtomic w then
    match opOfSubcode (decodeFields w).subcode with
    | some o => .ok (Instr.build o (decodeFields w).rd (decodeFields w).rs1 (decodeFields w).rs2)
    | none => .error .unknownSubcode
  else .error .notAtomic

/-- The decoder on bytes in address order: one instruction and the bytes after it, or a refusal by name. Every
instruction is four bytes long (R49, R60 of spec/30_encoding.md). -/
def decodeBytes (e : Endian) : List Byte → Except DecodeReject (Instr × List Byte)
  | b0 :: b1 :: b2 :: b3 :: rest =>
    match decodeWord (bytesToWord e b0 b1 b2 b3) with
    | .ok i => .ok (i, rest)
    | .error r => .error (.unhandled r)
  | _ => .error .truncated

/-- The decoder read through the opcode table's numbering of bits: bit 0 is the least significant bit of the instruction
word, bits from `nbits` up are zero. -/
def decodeTableWord (nbits w : Nat) : Option Instr :=
  if nbits ≤ 32 then
    match decodeBytes .little (wordToBytes .little (BitVec.ofNat 32 (w % 2 ^ nbits))) with
    | .ok (i, _) => some i
    | .error _ => none
  else none

/-! ### Encoding -/

/-- The bits the decoder does not look at (R52, R56 of spec/30_encoding.md): bits 14:12, bits 26:25, and for LR the
position of `rs2`, bits 24:20. -/
structure Ignored where
  bits14_12 : BitVec 3
  bits26_25 : BitVec 2
  lrBits24_20 : BitVec 5
  deriving DecidableEq, Repr

/-- The assembler's choice of the ignored bits for a plain `.w` form, as in the source's worked word `0x1000A12F`
(R61 of spec/30_encoding.md). -/
def Ignored.plain : Ignored := ⟨0b010, 0b00, 0b00000⟩

/-- The one instruction format (R50 of spec/30_encoding.md), most significant field first. -/
def layout (f5 : BitVec 5) (b26 : BitVec 2) (f2 f1 : BitVec 5) (b14 : BitVec 3) (fd : BitVec 5) : IWord :=
  f5 ++ b26 ++ f2 ++ f1 ++ b14 ++ fd ++ opcAmo

/-- The five bits of a register number. -/
def regBits (r : RegIdx) : BitVec 5 := BitVec.ofFin r

/-- Bits 24:20 of an instruction's word: its value register, or for LR the ignored bits. -/
def rs2Bits (g : Ignored) (i : Instr) : BitVec 5 :=
  match i.rs2? with
  | some r => regBits r
  | none => g.lrBits24_20

/-- The word of an instruction, with the ignored bits as given. -/
def encodeWith (g : Ignored) (i : Instr) : IWord :=
  layout (funct5 i.op) g.bits26_25 (rs2Bits g i) (regBits i.rs1) g.bits14_12 (regBits i.rd)

/-- The word of an instruction in its plain `.w` form. -/
def encode (i : Instr) : IWord := encodeWith .plain i

end Sys2Proof
end

