-- ==== Sys2Proof/Machine/State.lean ====
section
/-! DEFINITION. The state of the machine, the reasons a step can stop, and the state after reset. -/

namespace Sys2Proof.Machine

open Sys2Proof

/-- The trap cause (R21 of spec/10_state.md): an input of the boundary, in no encoding (decision D14). -/
structure Cause where
  isInterrupt : Bool
  code : Nat
  deriving DecidableEq, Repr

/-- The unit's result output (R26 of spec/10_state.md, R66 of spec/40_decode_dispatch.md). -/
inductive Result where
  | handled
  | unhandled (r : UnhandledReason)
  deriving DecidableEq, Repr

/-- One request on the memory port: `MemRead(addr, 4)` or `MemWrite(addr, 4, v)` (R31, R32 of spec/20_memory.md). -/
inductive PortRequest where
  | read (addr : Word)
  | write (addr : Word) (v : Word)
  deriving DecidableEq, Repr

/-- One call of an external function by the boundary (R107 of spec/60_exceptions.md). The arguments of the interrupt
handlers are not in the source (R114), so none are recorded. -/
inductive Call where
  /-- `ExceptionHandler(CTX_VIEW(frame))` (R112, R113): the parts of the frame it is shown, with their values. -/
  | exceptionHandler (view : List (FrameItem × Word))
  /-- `VT[c].handler(...)` (R114): the registered handler of the entry. -/
  | vectorHandler (handler : Nat)
  /-- `DefaultHandler(...)` (R115, R116). -/
  | defaultHandler
  deriving DecidableEq, Repr

/-- The boundary's state (R107 of spec/60_exceptions.md: `Dispatch`, then `Resume` or `Forward`), and `waiting`: no trap
has been presented (R133 of spec/70_reset_and_hazards.md, "it waits to be invoked"). -/
inductive Boundary where
  | waiting
  | dispatch
  | resume
  | forward (c : Call)
  deriving DecidableEq, Repr

/-- What the host does between two traps (R30 of spec/10_state.md), ending in the next trap (R121 of
spec/60_exceptions.md): the slots it changes, the saved program counter where it is not the one left in the frame, the
bytes it stores, the cause it presents. `RES` is not among them (log entries 12 and 17). -/
structure HostTurn where
  regs : List (RegIdx × Word)
  pc : Option Word
  stores : List (Word × Byte)
  cause : Cause
  deriving DecidableEq, Repr

/-- Memory: the bytes listed, by address, and the byte every unlisted address reads as (log entry 5). -/
structure Memory where
  fill : Byte
  cells : List Host.Cell
  deriving DecidableEq, Repr

/-- The state of the whole system as the unit sees it (R13 of spec/10_state.md): the owned register `res`, the borrowed
frame `x` and `pc`, memory, the boundary's input and state, the outputs of the last trap, the host's moves still to come,
and the open parameters. -/
structure State where
  /-- The register file of the trap frame (R14 of spec/10_state.md). -/
  x : Vector Word 32
  /-- The saved program counter of the trap frame (R16 of spec/10_state.md). -/
  pc : Word
  /-- `RES`, the reservation register (R18 of spec/10_state.md). -/
  res : Word
  /-- Memory behind the port (R23 of spec/10_state.md). -/
  mem : Memory
  /-- The trap cause presented (R21 of spec/10_state.md). -/
  cause : Cause
  /-- The boundary's state (R107 of spec/60_exceptions.md). -/
  boundary : Boundary
  /-- The unit's result in the last trap, `none` if it was not invoked (R26 of spec/10_state.md; log entry 16). -/
  result : Option Result
  /-- The requests the last trap made on the port, in order (R39 of spec/20_memory.md; log entry 16). -/
  port : List PortRequest
  /-- The host's moves still to come (R30 of spec/10_state.md; log entry 12). -/
  host : List HostTurn
  /-- The open parameters (R10 of spec/00_scope.md). -/
  plat : Platform
  deriving DecidableEq, Repr

/-- Why a run stops: a request the memory port does not admit (R37 of spec/20_memory.md: the invocation has no outcome,
the model has no step and marks the run as faulted). Raised by the port operations of Machine/Ops.lean only. All are
safe: the model stops where a platform may go on, and no state is given, as R37 leaves it unspecified. -/
inductive Fault where
  /-- A data request at an address that is not a multiple of 4, under `MISALIGNED_POLICY = refuse` (R35). Safe. -/
  | dataMisaligned (k : AccessKind) (addr : Word)
  /-- The same under `MISALIGNED_POLICY = trap`: a nested trap, which the source forbids (R35, R123). Safe. -/
  | nestedTrap (k : AccessKind) (addr : Word)
  /-- A request some byte of which `MEM_ADMIT` does not admit (R37). Safe. -/
  | notAdmitted (k : AccessKind) (addr : Word)
  /-- A fetch at a program counter that is not a multiple of 4, under `FETCH_POLICY = refuse` (R46). Safe. -/
  | fetchMisaligned (pc : Word)
  deriving DecidableEq, Repr

/-- Why an instruction has no meaning. -/
inductive Refusal where
  /-- The instruction of this mnemonic has no meaning yet: raised by an arm of `exec` only; no arm does. Safe. -/
  | notModelled (mnemonic : String)
  deriving DecidableEq, Repr

/-- The machine right after reset: `RES = 0` (R131 of spec/70_reset_and_hazards.md) and the boundary waiting to be invoked
(R133). The rest has no reset value in the spec (R132): zero slots and program counter (log entry 4), memory with nothing
listed (log entry 5), the cause (log entry 8), no outputs (log entry 16), no move of the host (log entry 12), the default
platform (log entries 6, 8, 9). -/
def State.reset : State where
  x := Vector.replicate 32 0
  pc := 0
  res := 0
  mem := { fill := 0, cells := [] }
  cause := { isInterrupt := false, code := Platform.default.excIllegal }
  boundary := .waiting
  result := none
  port := []
  host := []
  plat := Platform.default

end Sys2Proof.Machine
end

