-- ==== Sys2Proof/Machine/Ops.lean ====
section
/-! DEFINITION. The named operations over registers, memory and the port; trap entry and the return from it. -/

namespace Sys2Proof.Machine

open Sys2Proof

/-! ### Memory -/

/-- The byte at address `a` in a list of cells. -/
def cellsGet (fill : Byte) : List Host.Cell → Nat → Byte
  | [], _ => fill
  | (k, v) :: t, a => if k = a then v else cellsGet fill t a

/-- A list of cells with byte `b` at address `a`; no cell is kept that holds what an unlisted address reads as. -/
def cellsPut (fill : Byte) : List Host.Cell → Nat → Byte → List Host.Cell
  | [], a, b => if b = fill then [] else [(a, b)]
  | (k, v) :: t, a, b =>
    if a < k then (if b = fill then (k, v) :: t else (a, b) :: (k, v) :: t)
    else if a = k then (if b = fill then t else (a, b) :: t)
    else (k, v) :: cellsPut fill t a b

/-- Every address of the list is above `lo` and they rise strictly, every address is inside the `2^XLEN`-byte space, and no
cell holds the fill byte. -/
def cellsWf (fill : Byte) : Option Nat → List Host.Cell → Bool
  | _, [] => true
  | lo, (k, v) :: t =>
    (match lo with | some l => decide (l < k) | none => true) && decide (k < 2 ^ 32) && decide (v ≠ fill)
      && cellsWf fill (some k) t

/-- The canonical form of memory: equal memories (with one fill byte) are equal data. -/
def Memory.wf (m : Memory) : Bool := cellsWf m.fill none m.cells

/-- The byte at an address. -/
def Memory.read (m : Memory) (a : Word) : Byte := cellsGet m.fill m.cells a.toNat

/-- Memory with one byte stored. -/
def Memory.write (m : Memory) (a : Word) (b : Byte) : Memory := { m with cells := cellsPut m.fill m.cells a.toNat b }

/-- Memory with a list of bytes stored, the first of the list first. -/
def Memory.writeBytes (m : Memory) : List (Word × Byte) → Memory
  | [] => m
  | (a, b) :: t => (m.write a b).writeBytes t

/-- The addresses of the four bytes of a word access, modulo `2^XLEN` (R33, R35 of spec/20_memory.md). -/
def wordAddrs (a : Word) : List Word := [a, a + 1, a + 2, a + 3]

/-- The word at an address, its bytes in the byte order `e` (R33 of spec/20_memory.md). -/
def Memory.loadWord (m : Memory) (e : Endian) (a : Word) : Word :=
  bytesToWord e (m.read a) (m.read (a + 1)) (m.read (a + 2)) (m.read (a + 3))

/-- Memory with a word stored, its bytes in the byte order `e` (R32, R33 of spec/20_memory.md). -/
def Memory.storeWord (m : Memory) (e : Endian) (a : Word) (v : Word) : Memory :=
  m.writeBytes ((wordAddrs a).zip (wordToBytes e v))

/-! ### Registers and outputs -/

/-- Read slot `i`: slot 0 as any other (R15 of spec/10_state.md, decision D9; log entry 14). -/
def State.reg (s : State) (i : RegIdx) : Word := s.x[i]

/-- Write slot `i`, slot 0 as any other (R15 of spec/10_state.md). -/
def State.setReg (s : State) (i : RegIdx) (v : Word) : State := { s with x := s.x.set i.val v i.isLt }

/-- Write `RES` (R18 of spec/10_state.md). -/
def State.setRes (s : State) (v : Word) : State := { s with res := v }

/-- Write the saved program counter: the boundary's act only (R110 of spec/60_exceptions.md). -/
def State.setPc (s : State) (v : Word) : State := { s with pc := v }

/-- Replace memory. -/
def State.setMem (s : State) (m : Memory) : State := { s with mem := m }

/-- Record one more request on the port (R39 of spec/20_memory.md). -/
def State.logPort (s : State) (r : PortRequest) : State := { s with port := s.port ++ [r] }

/-- Give the unit's result (R66 of spec/40_decode_dispatch.md). -/
def State.setResult (s : State) (r : Result) : State := { s with result := some r }

/-- `return Handled` (R65, R66 of spec/40_decode_dispatch.md). -/
def State.handled (s : State) : State := s.setResult .handled

/-! ### The memory port (R31 to R39 of spec/20_memory.md) -/

/-- Is this byte plain memory that the port admits for this kind of request? (`MEM_ADMIT`, R10 of spec/00_scope.md.) -/
def admitsByte (p : Platform) (k : AccessKind) (a : Word) : Bool :=
  p.regions.any (fun r =>
    decide (r.base ≤ a.toNat) && decide (a.toNat < r.base + r.size) &&
      (match k with | .read => r.canRead | .write => r.canWrite))

/-- Are all four bytes of a word request admitted? -/
def admitsWord (p : Platform) (k : AccessKind) (a : Word) : Bool :=
  (wordAddrs a).all (admitsByte p k)

/-- An address that is a multiple of `XB = 4`. -/
def aligned (a : Word) : Bool := a.toNat % 4 == 0

/-- Why the port does not admit a data request, or `none` if it admits it (R35, R37 of spec/20_memory.md). -/
def portRefusal (p : Platform) (k : AccessKind) (a : Word) : Option Fault :=
  if aligned a || p.misaligned == .bytewise then
    if admitsWord p k a then none else some (.notAdmitted k a)
  else if p.misaligned == .trap then some (.nestedTrap k a)
  else some (.dataMisaligned k a)

/-- Why the fetch at `pc` is not admitted, or `none` if it is (R46 of spec/20_memory.md). -/
def fetchRefusal (p : Platform) (pc : Word) : Option Fault :=
  if aligned pc || p.fetch == .bytewise then
    if admitsWord p .read pc then none else some (.notAdmitted .read pc)
  else some (.fetchMisaligned pc)

/-- The word in memory at an address, in the platform's byte order. -/
def State.wordAt (s : State) (a : Word) : Word := s.mem.loadWord s.plat.endian a

/-- `MemRead(a, 4)` for data (R31 of spec/20_memory.md): the word, and the state with the request recorded. -/
def State.memRead (s : State) (a : Word) : Except Fault (Word × State) :=
  match portRefusal s.plat .read a with
  | some f => .error f
  | none => .ok (s.wordAt a, s.logPort (.read a))

/-- `MemWrite(a, 4, v)` for data (R32 of spec/20_memory.md). -/
def State.memWrite (s : State) (a v : Word) : Except Fault State :=
  match portRefusal s.plat .write a with
  | some f => .error f
  | none => .ok ((s.setMem (s.mem.storeWord s.plat.endian a v)).logPort (.write a v))

/-- The boundary's fetch, `MemRead(pc, 4)` (R46, R47 of spec/20_memory.md): the bytes in memory now. -/
def State.fetch (s : State) : Except Fault (IWord × State) :=
  match fetchRefusal s.plat s.pc with
  | some f => .error f
  | none => .ok (s.wordAt s.pc, s.logPort (.read s.pc))

/-! ### Trap entry and return (R110, R121, R122 of spec/60_exceptions.md) -/

/-- Write a list of slots, the first of the list first. -/
def State.setRegs (s : State) : List (RegIdx × Word) → State
  | [] => s
  | (i, v) :: t => (s.setReg i v).setRegs t

/-- The host's trap entry (R121 of spec/60_exceptions.md) after its own moves (R30 of spec/10_state.md): slots, saved
program counter and memory as the host leaves them, the cause it presents, the boundary entered. `RES` stays. -/
def State.hostTrap (s : State) (t : HostTurn) : State :=
  let s1 := s.setRegs t.regs
  { s1 with
    pc := t.pc.getD s.pc
    mem := s1.mem.writeBytes t.stores
    cause := t.cause
    boundary := .dispatch }

/-- Entry into the boundary: the outputs of the trap before are gone (log entry 16). -/
def State.enter (s : State) : State := { s with boundary := .dispatch, result := none, port := [] }

/-- State `Resume` (R110 of spec/60_exceptions.md): the saved program counter advanced by one instruction word, modulo
`2^XLEN` (R17 of spec/10_state.md, decision D10; log entry 11), and control handed back to the host. -/
def State.resume (s : State) : State := { s with pc := s.pc + 4, boundary := .resume }

/-- State `Forward` (R107 of spec/60_exceptions.md): one external function called, the frame as it stands. -/
def State.forward (s : State) (c : Call) : State := { s with boundary := .forward c }

end Sys2Proof.Machine
end

