-- ==== Sys2Proof/Machine/Boundary.lean ====
section
/-! DEFINITION. The boundary of spec/60_exceptions.md: classification, forwarding, what follows the unit's result, and
which trap comes next. Machine/Step.lean puts these together with the unit. -/

namespace Sys2Proof.Machine

open Sys2Proof

/-- The three states that follow `Dispatch` (R107 of spec/60_exceptions.md). -/
inductive Path where
  | emulateAttempt
  | forwardException
  | forwardInterrupt
  deriving DecidableEq, Repr

/-- The cause "illegal instruction" of a platform (R21 of spec/10_state.md). -/
def illegalCause (p : Platform) : Cause := { isInterrupt := false, code := p.excIllegal }

/-- Cause classification (R108 of spec/60_exceptions.md). -/
def State.classify (s : State) : Path :=
  if s.cause.isInterrupt then .forwardInterrupt
  else if s.cause.code = s.plat.excIllegal then .emulateAttempt
  else .forwardException

/-- The value of a part of the frame. -/
def State.frameItem (s : State) : FrameItem → Word
  | .x i => s.reg i
  | .pc => s.pc

/-- `CTX_VIEW(frame)` (R112 of spec/60_exceptions.md, decision D21). -/
def State.ctxView (s : State) : List (FrameItem × Word) := s.plat.ctxView.map (fun i => (i, s.frameItem i))

/-- The handler an interrupt code selects (R114 to R116 of spec/60_exceptions.md). -/
def interruptCall (p : Platform) (code : Nat) : Call :=
  match p.vt[code]? with
  | none => .defaultHandler
  | some e => if e.reserved then .defaultHandler else .vectorHandler e.handler

/-- `forward ExceptionHandler(CTX_VIEW(frame))` (R112, R113 of spec/60_exceptions.md). -/
def State.forwardException (s : State) : State := s.forward (.exceptionHandler s.ctxView)

/-- The interrupt path (R114 to R116, R129 of spec/60_exceptions.md). -/
def State.forwardInterrupt (s : State) : State := s.forward (interruptCall s.plat s.cause.code)

/-- What the boundary does once the unit has answered (R110, R111, R112 of spec/60_exceptions.md). -/
def State.afterUnit (s : State) : State :=
  match s.result with
  | some .handled => s.resume
  | _ => s.forwardException

/-- Is there an atomic word at the program counter that can be fetched? -/
def State.atomicAtPc (s : State) : Bool :=
  match s.fetch with
  | .ok (w, _) => isAtomic w
  | .error _ => false

/-- The next trap, if one comes: the one already presented; else the one at the end of the host's next move; else, after
`Resume`, the trap the host takes on an atomic word at the program counter, which it cannot execute natively (R135 (1) of
spec/70_reset_and_hazards.md; log entry 13). Otherwise none: the unit waits to be invoked (R133; log entry 12). -/
def State.nextTrap (s : State) : Option State :=
  match s.boundary, s.host with
  | .dispatch, _ => some s
  | _, t :: rest => some (({ s with host := rest } : State).hostTrap t)
  | .resume, [] => if s.atomicAtPc then some { s with cause := illegalCause s.plat, boundary := .dispatch } else none
  | .waiting, [] => none
  | .forward _, [] => none

end Sys2Proof.Machine
end

