-- ==== Sys2Proof/Machine/Operands.lean ====
section
/-! DEFINITION. The three operand forms (R53 of spec/30_encoding.md): registers only, no immediate, no offset. -/

namespace Sys2Proof.Machine

open Sys2Proof

/-- The effective address `x[rs1]`, with no offset and no alignment check (R53 of spec/30_encoding.md, R34 of
spec/20_memory.md). -/
def State.addrOperand (s : State) (rs1 : RegIdx) : Word := s.reg rs1

/-- The value operand `x[rs2]` (R53 of spec/30_encoding.md). -/
def State.valueOperand (s : State) (rs2 : RegIdx) : Word := s.reg rs2

/-- The destination `x[rd]`, slot 0 included (R27 and R15 of spec/10_state.md). -/
def State.writeDest (s : State) (rd : RegIdx) (v : Word) : State := s.setReg rd v

end Sys2Proof.Machine
end

