-- ==== Sys2Proof/Machine/Amo.lean ====
section
/-! DEFINITION. The nine atomic memory operations (spec/42_amo.md) over their common template. -/

namespace Sys2Proof.Machine

open Sys2Proof

/-- `AMO(f)` (R89 of spec/42_amo.md): address and operand sampled before `x[rd]` is written (R73 of
spec/40_decode_dispatch.md, decision D7; log entry 10), then read, `x[rd] <- old`, write, always performed (R100). -/
def amo (f : Word → Word → Word) (rd rs1 rs2 : RegIdx) (s : State) : Host.Outcome State Fault Refusal :=
  let a := s.addrOperand rs1
  let v := s.valueOperand rs2
  match s.memRead a with
  | .error e => .fault e
  | .ok (old, s1) =>
    match (s1.writeDest rd old).memWrite a (f old v) with
    | .error e => .fault e
    | .ok s2 => .next s2.handled

/-! ### Combining functions (R90 to R98, R101 to R103 of spec/42_amo.md) -/

/-- AMOSWAP's (R90). -/
def amoSwapFn (_old v : Word) : Word := v

/-- AMOADD's: addition modulo `2^XLEN` (R91, R101). -/
def amoAddFn (old v : Word) : Word := old + v

/-- AMOXOR's (R92). -/
def amoXorFn (old v : Word) : Word := old ^^^ v

/-- AMOAND's (R93). -/
def amoAndFn (old v : Word) : Word := old &&& v

/-- AMOOR's (R94). -/
def amoOrFn (old v : Word) : Word := old ||| v

/-- AMOMIN's: two's-complement comparison (R95, R102). -/
def amoMinFn (old v : Word) : Word := if old.toInt ≤ v.toInt then old else v

/-- AMOMAX's: two's-complement comparison (R96, R102). -/
def amoMaxFn (old v : Word) : Word := if old.toInt ≥ v.toInt then old else v

/-- AMOMINU's: unsigned comparison (R97, R103). -/
def amoMinuFn (old v : Word) : Word := if old.toNat ≤ v.toNat then old else v

/-- AMOMAXU's: unsigned comparison (R98, R103). -/
def amoMaxuFn (old v : Word) : Word := if old.toNat ≥ v.toNat then old else v

/-! ### The nine instructions -/

/-- AMOADD (R91 of spec/42_amo.md). -/
def execAmoadd (rd rs1 rs2 : RegIdx) (s : State) : Host.Outcome State Fault Refusal := amo amoAddFn rd rs1 rs2 s

/-- AMOSWAP (R90 of spec/42_amo.md). -/
def execAmoswap (rd rs1 rs2 : RegIdx) (s : State) : Host.Outcome State Fault Refusal := amo amoSwapFn rd rs1 rs2 s

/-- AMOXOR (R92 of spec/42_amo.md). -/
def execAmoxor (rd rs1 rs2 : RegIdx) (s : State) : Host.Outcome State Fault Refusal := amo amoXorFn rd rs1 rs2 s

/-- AMOOR (R94 of spec/42_amo.md). -/
def execAmoor (rd rs1 rs2 : RegIdx) (s : State) : Host.Outcome State Fault Refusal := amo amoOrFn rd rs1 rs2 s

/-- AMOAND (R93 of spec/42_amo.md). -/
def execAmoand (rd rs1 rs2 : RegIdx) (s : State) : Host.Outcome State Fault Refusal := amo amoAndFn rd rs1 rs2 s

/-- AMOMIN (R95 of spec/42_amo.md). -/
def execAmomin (rd rs1 rs2 : RegIdx) (s : State) : Host.Outcome State Fault Refusal := amo amoMinFn rd rs1 rs2 s

/-- AMOMAX (R96 of spec/42_amo.md). -/
def execAmomax (rd rs1 rs2 : RegIdx) (s : State) : Host.Outcome State Fault Refusal := amo amoMaxFn rd rs1 rs2 s

/-- AMOMINU (R97 of spec/42_amo.md). -/
def execAmominu (rd rs1 rs2 : RegIdx) (s : State) : Host.Outcome State Fault Refusal := amo amoMinuFn rd rs1 rs2 s

/-- AMOMAXU (R98 of spec/42_amo.md). -/
def execAmomaxu (rd rs1 rs2 : RegIdx) (s : State) : Host.Outcome State Fault Refusal := amo amoMaxuFn rd rs1 rs2 s

end Sys2Proof.Machine
end

