-- ==== Sys2Proof/Machine/Flags.lean ====
section
/-! DEFINITION. The unit has no flag (R20 of spec/10_state.md). Here stand the two things a reader might take for one: the
result code of SC, an ordinary value written to `x[rd]`, and the comparison it reports. -/

namespace Sys2Proof.Machine

open Sys2Proof

/-- SC's success code (R79 of spec/41_lr_sc.md, decision D24): the `XLEN`-bit value 0. -/
def scSuccess : Word := 0

/-- SC's failure code (R79 of spec/41_lr_sc.md, decision D24): the `XLEN`-bit value 1. -/
def scFailure : Word := 1

/-- "No reservation", the value 0 (R9 of spec/00_scope.md, R77 of spec/41_lr_sc.md). -/
def resNone : Word := 0

/-- SC's comparison: all `XLEN` bits of the address against all of `RES` (R79, R85 of spec/41_lr_sc.md). -/
def State.reserved (s : State) (a : Word) : Bool := a == s.res

end Sys2Proof.Machine
end

