-- ==== Sys2Proof/Machine/LrSc.lean ====
section
/-! DEFINITION. Load-reserved and store-conditional (spec/41_lr_sc.md). -/

namespace Sys2Proof.Machine

open Sys2Proof

/-- LR (R78 of spec/41_lr_sc.md): `RES` takes the address, then the word there is read, then `x[rd]` is written. -/
def execLr (rd rs1 : RegIdx) (s : State) : Host.Outcome State Fault Refusal :=
  let a := s.addrOperand rs1
  match (s.setRes a).memRead a with
  | .error f => .fault f
  | .ok (v, s1) => .next (s1.writeDest rd v).handled

/-- SC (R79 of spec/41_lr_sc.md): on a match memory, then `x[rd]`, then `RES` (spec/90_conflicts.md C4); on a mismatch the
failure code and nothing else. -/
def execSc (rd rs1 rs2 : RegIdx) (s : State) : Host.Outcome State Fault Refusal :=
  let a := s.addrOperand rs1
  if s.reserved a then
    let v := s.valueOperand rs2
    match s.memWrite s.res v with
    | .error f => .fault f
    | .ok s1 => .next ((s1.writeDest rd scSuccess).setRes resNone).handled
  else .next (s.writeDest rd scFailure).handled

end Sys2Proof.Machine
end

