-- ==== Sys2Proof/Machine/Dispatch.lean ====
section
/-! DEFINITION. The dispatch of R65 and R69 (spec/40_decode_dispatch.md): one arm per instruction. -/

namespace Sys2Proof.Machine

open Sys2Proof

/-- The effect of one instruction on the state, without the boundary's part: the unit neither reads nor writes `pc` (R75
of spec/40_decode_dispatch.md). -/
def exec (i : Instr) (s : State) : Host.Outcome State Fault Refusal :=
  match i with
  | .amoadd rd rs1 rs2 => Sys2Proof.Machine.execAmoadd rd rs1 rs2 s
  | .amoswap rd rs1 rs2 => Sys2Proof.Machine.execAmoswap rd rs1 rs2 s
  | .lr rd rs1 => Sys2Proof.Machine.execLr rd rs1 s
  | .sc rd rs1 rs2 => Sys2Proof.Machine.execSc rd rs1 rs2 s
  | .amoxor rd rs1 rs2 => Sys2Proof.Machine.execAmoxor rd rs1 rs2 s
  | .amoor rd rs1 rs2 => Sys2Proof.Machine.execAmoor rd rs1 rs2 s
  | .amoand rd rs1 rs2 => Sys2Proof.Machine.execAmoand rd rs1 rs2 s
  | .amomin rd rs1 rs2 => Sys2Proof.Machine.execAmomin rd rs1 rs2 s
  | .amomax rd rs1 rs2 => Sys2Proof.Machine.execAmomax rd rs1 rs2 s
  | .amominu rd rs1 rs2 => Sys2Proof.Machine.execAmominu rd rs1 rs2 s
  | .amomaxu rd rs1 rs2 => Sys2Proof.Machine.execAmomaxu rd rs1 rs2 s

end Sys2Proof.Machine
end

