-- ==== Sys2Proof/Machine/Step.lean ====
section
/-! DEFINITION. One step of the machine: one trap, from the host's presenting it to the boundary's `Resume` or `Forward`. -/

namespace Sys2Proof.Machine

open Sys2Proof

/-- `Step(w)`, one invocation of the unit (R65 of spec/40_decode_dispatch.md): decode, then the operation, or `Unhandled`
with nothing changed (R70, R71). -/
def unitStep (w : IWord) (s : State) : Host.Outcome State Fault Refusal :=
  match decodeWord w with
  | .ok i => exec i s
  | .error r => .next (s.setResult (.unhandled r))

/-- `TrapEntry` (R107 of spec/60_exceptions.md). -/
def trapEntry (s : State) : Host.Outcome State Fault Refusal :=
  match s.enter.classify with
  | .forwardInterrupt => .next s.enter.forwardInterrupt
  | .forwardException => .next s.enter.forwardException
  | .emulateAttempt =>
    match s.enter.fetch with
    | .error f => .fault f
    | .ok (w, s1) =>
      match unitStep w s1 with
      | .next s2 => .next s2.afterUnit
      | .fault f => .fault f
      | .refused r => .refused r

/-- One step: the next trap, whole; if none comes, the unit waits and nothing changes (R133 of
spec/70_reset_and_hazards.md; log entry 12). -/
def step (s : State) : Host.Outcome State Fault Refusal :=
  match s.nextTrap with
  | some t => trapEntry t
  | none => .next s

/-- The state with an instruction word stored at the program counter and the illegal-instruction trap on it presented, so
that the next step fetches and runs it (log entry 15). -/
def State.withFetchWord (s : State) (nbits w : Nat) : State :=
  { s with
    mem := s.mem.storeWord s.plat.endian s.pc (BitVec.ofNat 32 (w % 2 ^ nbits))
    cause := illegalCause s.plat
    boundary := .dispatch }

end Sys2Proof.Machine
end

