-- ==== Sys2Proof/Safety.lean ====
section
/-! DEFINITION. The terms statements are made in: what an instruction leaves alone, which requests are admitted, the
invariant of a run, a quiet stretch between an LR and its SC, the matching words of the opcode map, the tables of values
written and of requests made, the exchange of slot 0 with another slot. -/

namespace Sys2Proof.Machine

open Sys2Proof

/-- The port admits a data request (R37 of spec/20_memory.md). -/
def Admitted (s : State) (k : AccessKind) (a : Word) : Prop := portRefusal s.plat k a = none

/-- Every byte of memory reads as before. -/
def MemSame (s t : State) : Prop := ∀ b : Word, t.mem.read b = s.mem.read b

/-- Every byte outside the word at `a` reads as before. -/
def MemSameOutside (a : Word) (s t : State) : Prop := ∀ b : Word, b ∉ wordAddrs a → t.mem.read b = s.mem.read b

/-- What every instruction leaves alone: all slots but `rd`, the program counter, the cause, the boundary's state, the
host's moves, the platform; its result is `Handled`. -/
structure Frame (rd : RegIdx) (s t : State) : Prop where
  regs : ∀ r, r ≠ rd → t.reg r = s.reg r
  pc : t.pc = s.pc
  cause : t.cause = s.cause
  boundary : t.boundary = s.boundary
  host : t.host = s.host
  plat : t.plat = s.plat
  result : t.result = some .handled

/-- What the rule of an AMO says of its effect, `f` being its combining function (R89 of spec/42_amo.md): it completes
wherever the port admits both requests, and it stops with the port's fault where the port refuses one. -/
def AmoEffect (mk : RegIdx → RegIdx → RegIdx → Instr) (f : Word → Word → Word) : Prop :=
  ∀ (rd rs1 rs2 : RegIdx) (s : State),
    (s.mem.wf = true → Admitted s .read (s.reg rs1) → Admitted s .write (s.reg rs1) →
      ∃ t, exec (mk rd rs1 rs2) s = .next t ∧
        t.reg rd = s.wordAt (s.reg rs1) ∧
        t.wordAt (s.reg rs1) = f (s.wordAt (s.reg rs1)) (s.reg rs2) ∧
        MemSameOutside (s.reg rs1) s t ∧
        t.res = s.res ∧
        t.port = s.port ++
          [.read (s.reg rs1), .write (s.reg rs1) (f (s.wordAt (s.reg rs1)) (s.reg rs2))] ∧
        Frame rd s t) ∧
    (∀ e, portRefusal s.plat .read (s.reg rs1) = some e → exec (mk rd rs1 rs2) s = .fault e) ∧
    (∀ e, Admitted s .read (s.reg rs1) → portRefusal s.plat .write (s.reg rs1) = some e →
      exec (mk rd rs1 rs2) s = .fault e)

/-- Is this one of the nine AMOs? -/
def isAmo : Instr → Bool
  | .lr _ _ => false
  | .sc _ _ _ => false
  | .amoadd _ _ _ | .amoswap _ _ _ | .amoxor _ _ _ | .amoor _ _ _ | .amoand _ _ _
  | .amomin _ _ _ | .amomax _ _ _ | .amominu _ _ _ | .amomaxu _ _ _ => true

/-- The slots an instruction reads (R27 of spec/10_state.md): SC reads its value operand on a match only. -/
def readSlots (i : Instr) (s : State) : List RegIdx :=
  match i with
  | .lr _ rs1 => [rs1]
  | .sc _ rs1 rs2 => if s.reg rs1 = s.res then [rs1, rs2] else [rs1]
  | .amoadd _ rs1 rs2 | .amoswap _ rs1 rs2 | .amoxor _ rs1 rs2 | .amoor _ rs1 rs2 | .amoand _ rs1 rs2
  | .amomin _ rs1 rs2 | .amomax _ rs1 rs2 | .amominu _ rs1 rs2 | .amomaxu _ rs1 rs2 => [rs1, rs2]

/-- The value written to `x[rd]`, in terms of the state before (the last column of R27's table, spec/10_state.md). -/
def valueWritten (i : Instr) (s : State) : Word :=
  match i with
  | .lr _ rs1 => s.wordAt (s.reg rs1)
  | .sc _ rs1 _ => if s.reg rs1 = s.res then 0#32 else 1#32
  | .amoadd _ rs1 _ | .amoswap _ rs1 _ | .amoxor _ rs1 _ | .amoor _ rs1 _ | .amoand _ rs1 _
  | .amomin _ rs1 _ | .amomax _ rs1 _ | .amominu _ rs1 _ | .amomaxu _ rs1 _ => s.wordAt (s.reg rs1)

/-- The two requests of an AMO with combining function `f` (R39 of spec/20_memory.md). -/
def amoRequests (f : Word → Word → Word) (rs1 rs2 : RegIdx) (s : State) : List PortRequest :=
  [.read (s.reg rs1), .write (s.reg rs1) (f (s.wordAt (s.reg rs1)) (s.reg rs2))]

/-- The requests an instruction makes, in order, in terms of the state before (the table of R39, spec/20_memory.md). -/
def dataRequests (i : Instr) (s : State) : List PortRequest :=
  match i with
  | .lr _ rs1 => [.read (s.reg rs1)]
  | .sc _ rs1 rs2 => if s.reg rs1 = s.res then [.write s.res (s.reg rs2)] else []
  | .amoswap _ rs1 rs2 => amoRequests amoSwapFn rs1 rs2 s
  | .amoadd _ rs1 rs2 => amoRequests amoAddFn rs1 rs2 s
  | .amoxor _ rs1 rs2 => amoRequests amoXorFn rs1 rs2 s
  | .amoand _ rs1 rs2 => amoRequests amoAndFn rs1 rs2 s
  | .amoor _ rs1 rs2 => amoRequests amoOrFn rs1 rs2 s
  | .amomin _ rs1 rs2 => amoRequests amoMinFn rs1 rs2 s
  | .amomax _ rs1 rs2 => amoRequests amoMaxFn rs1 rs2 s
  | .amominu _ rs1 rs2 => amoRequests amoMinuFn rs1 rs2 s
  | .amomaxu _ rs1 rs2 => amoRequests amoMaxuFn rs1 rs2 s

/-- Why the port does not admit a request, or `none` if it admits it (R37 of spec/20_memory.md). -/
def PortRequest.refusal (p : Platform) : PortRequest → Option Fault
  | .read a => portRefusal p .read a
  | .write a _ => portRefusal p .write a

/-- The reason of the first request of a list that the port does not admit: the ones before it were made, none after it
is. -/
def firstRefusal (p : Platform) (rs : List PortRequest) : Option Fault := rs.findSome? (PortRequest.refusal p)

/-- Each of the four bytes of the word at `a`, addresses modulo `2^XLEN`, is in a region that permits this kind of request
(log entry 6's form of `MEM_ADMIT`). -/
def InRegions (p : Platform) (k : AccessKind) (a : Word) : Prop :=
  ∀ j : Nat, j < 4 → ∃ r ∈ p.regions, r.base ≤ (a.toNat + j) % 2 ^ 32 ∧ (a.toNat + j) % 2 ^ 32 < r.base + r.size ∧
    (k = .read → r.canRead = true) ∧ (k = .write → r.canWrite = true)

/-- The exchange of slot 0 with slot `k`, on slot numbers. -/
def swapZero (k r : RegIdx) : RegIdx := if r = 0 then k else if r = k then 0 else r

/-- The same on an instruction: every register field that names one of the two slots names the other. -/
def swapZeroInstr (k : RegIdx) (i : Instr) : Instr :=
  Instr.build i.op (swapZero k i.rd) (swapZero k i.rs1) (swapZero k (i.rs2?.getD 0))

/-- The same on a state: the contents of the two slots exchanged, nothing else. -/
def State.swapZero (k : RegIdx) (s : State) : State := (s.setReg 0 (s.reg k)).setReg k (s.reg 0)

/-- The matching word of each operation under the mask `0xF800007F`, as the table of R55 (spec/30_encoding.md) prints it. -/
def matchWord : Op → IWord
  | .amoadd => 0x0000002F
  | .amoswap => 0x0800002F
  | .lr => 0x1000002F
  | .sc => 0x1800002F
  | .amoxor => 0x2000002F
  | .amoor => 0x4000002F
  | .amoand => 0x6000002F
  | .amomin => 0x8000002F
  | .amomax => 0xA000002F
  | .amominu => 0xC000002F
  | .amomaxu => 0xE000002F

/-- The 21 subcodes that select nothing, as R57 (spec/30_encoding.md) lists them. -/
def unallocated : List (BitVec 5) :=
  [0b00101, 0b00110, 0b00111, 0b01001, 0b01010, 0b01011, 0b01101, 0b01110, 0b01111, 0b10001, 0b10010, 0b10011,
    0b10101, 0b10110, 0b10111, 0b11001, 0b11010, 0b11011, 0b11101, 0b11110, 0b11111]

/-- The invariant of a run: memory in its canonical form; the boundary is in `Resume` exactly when the last trap's result
was `Handled`; it got there by an illegal-instruction cause; a trap made at most three requests on the port. -/
structure State.Inv (s : State) : Prop where
  memory : s.mem.wf = true
  resume_iff : s.boundary = .resume ↔ s.result = some .handled
  cause : s.boundary = .resume → s.cause = illegalCause s.plat
  port : s.port.length ≤ 3

/-- A step that does not fault: the safe case of R37 (spec/20_memory.md). -/
def NoFault (s : State) : Prop := ∀ f, step s ≠ .fault f

/-- The state in which the unit is presented with the word at `pc`: outputs of the trap before gone, the fetch recorded (R107,
R109 of spec/60_exceptions.md). -/
def State.fetchedHere (s : State) : State :=
  { s with cause := illegalCause s.plat, boundary := .dispatch, result := none, port := [.read s.pc] }

/-- What the boundary makes of the unit's outcome on a word that was one of the eleven instructions: `pc` advanced from the
value it had, and `Resume` (R110 of spec/60_exceptions.md). -/
def resumeAfter (pc : Word) : Host.Outcome State Fault Refusal → Host.Outcome State Fault Refusal
  | .next t => .next { t with pc := pc + 4#32, boundary := .resume }
  | .fault f => .fault f
  | .refused r => .refused r

/-- A port that admits every request, data and fetch. -/
def AdmitsAll (p : Platform) : Prop := (∀ k a, portRefusal p k a = none) ∧ ∀ a, fetchRefusal p a = none

/-- A word that leaves a reservation on `a` alone when it is presented to the unit in state `u`: no LR, and no SC whose
address is `a` (R83 of spec/41_lr_sc.md). -/
def quietWord (a : Word) (w : IWord) (u : State) : Prop :=
  match decodeWord w with
  | .ok (.lr _ _) => False
  | .ok (.sc _ rs1 _) => u.reg rs1 ≠ a
  | .ok _ => True
  | .error _ => True

/-- A stretch of host moves and of invocations of the unit that leave a reservation on `a` alone (R83). -/
inductive Quiet (a : Word) : State → State → Prop where
  | refl (s : State) : Quiet a s s
  | host {s u : State} (t : HostTurn) : Quiet a s u → Quiet a s (u.hostTrap t)
  | word {s u v : State} (w : IWord) : Quiet a s u → quietWord a w u → unitStep w u = .next v → Quiet a s v

end Sys2Proof.Machine
end

