-- ==== Sys2Proof/Certificates/Slice0/Obligations.lean ====
section
/-! DEFINITION. The statements for the provers, made of the numbered rules of spec/. -/

open Sys2Proof Sys2Proof.Machine

/-! ### Decoder and encodings -/

/-- R67 (spec/40_decode_dispatch.md), whole: `is_atomic` in the two forms the rule gives. -/
def Obligations.IsAtomicTestsLowSevenBits : Prop :=
  ∀ w : IWord, (isAtomic w = true ↔ w.extractLsb' 0 7 = 0b0101111#7) ∧
    (isAtomic w = true ↔ w &&& 0x7F#32 = 0x2F#32)

/-- R51 (spec/30_encoding.md), whole: the five slices, each equal to its shift-and-mask form. -/
def Obligations.FieldsAreTheSlices : Prop :=
  ∀ w : IWord,
    (opcodeOf w = w.extractLsb' 0 7 ∧ (opcodeOf w).toNat = (w &&& 0x7F#32).toNat) ∧
    ((decodeFields w).rd.val = (w.extractLsb' 7 5).toNat ∧ (decodeFields w).rd.val = ((w >>> 7) &&& 0x1F#32).toNat) ∧
    ((decodeFields w).rs1.val = (w.extractLsb' 15 5).toNat ∧
      (decodeFields w).rs1.val = ((w >>> 15) &&& 0x1F#32).toNat) ∧
    ((decodeFields w).rs2.val = (w.extractLsb' 20 5).toNat ∧
      (decodeFields w).rs2.val = ((w >>> 20) &&& 0x1F#32).toNat) ∧
    ((decodeFields w).subcode = w.extractLsb' 27 5 ∧
      (decodeFields w).subcode.toNat = ((w >>> 27) &&& 0x1F#32).toNat)

/-- Words written out bit by bit from R50 and R55 (spec/30_encoding.md): the source's worked word, one word per operation
(their subcodes are log entry 2's), and two words that are no instruction. -/
def Obligations.WordsFromTheTableDecode : Prop :=
  decodeWord 0b00010_00_00000_00001_010_00010_0101111#32 = .ok (.lr 2 1) ∧
  decodeWord 0b00011_00_01011_01010_010_00110_0101111#32 = .ok (.sc 6 10 11) ∧
  decodeWord 0b00001_10_01011_01010_010_00101_0101111#32 = .ok (.amoswap 5 10 11) ∧
  decodeWord 0b00000_00_01011_01010_010_00101_0101111#32 = .ok (.amoadd 5 10 11) ∧
  decodeWord 0b00100_00_01011_01010_010_00101_0101111#32 = .ok (.amoxor 5 10 11) ∧
  decodeWord 0b01100_00_01011_01010_010_00101_0101111#32 = .ok (.amoand 5 10 11) ∧
  decodeWord 0b01000_00_01011_01010_010_00101_0101111#32 = .ok (.amoor 5 10 11) ∧
  decodeWord 0b10000_00_01011_01010_010_00101_0101111#32 = .ok (.amomin 5 10 11) ∧
  decodeWord 0b10100_00_01011_01010_010_00101_0101111#32 = .ok (.amomax 5 10 11) ∧
  decodeWord 0b11000_00_01011_01010_010_00101_0101111#32 = .ok (.amominu 5 10 11) ∧
  decodeWord 0b11100_00_01011_01010_010_00101_0101111#32 = .ok (.amomaxu 5 10 11) ∧
  decodeWord 0b00110_00_00000_00000_010_00000_0101111#32 = .error .unknownSubcode ∧
  decodeWord 0x00000013#32 = .error .notAtomic

/-- The match and mask table of R55 (spec/30_encoding.md): a word selects an operation exactly when its masked value is
the table's, and then the register fields are the operands. Ten of the eleven values are decision D2's (log entry 2). -/
def Obligations.MaskedWordSelectsTheOperation : Prop :=
  ∀ (w : IWord) (o : Op),
    (w &&& 0xF800007F#32 = matchWord o ↔ ∃ i, decodeWord w = .ok i ∧ i.op = o) ∧
    (w &&& 0xF800007F#32 = matchWord o →
      decodeWord w = .ok (Instr.build o (regField w 7) (regField w 15) (regField w 20)))

/-- Decode and encode agree for all eleven instructions, every operand at every value, the ignored bits at every value
(R50 to R56 of spec/30_encoding.md). The subcodes are log entry 2's. -/
def Obligations.DecodeOfEncodeIsTheInstruction : Prop :=
  ∀ (i : Instr) (g : Ignored), decodeWord (encodeWith g i) = .ok i

/-- The other direction: a word that decodes is the encoding of what it decodes to, under some choice of the ignored
bits; no other bit is dropped. -/
def Obligations.DecodedWordIsAnEncoding : Prop :=
  ∀ (w : IWord) (i : Instr), decodeWord w = .ok i → ∃ g, encodeWith g i = w

/-- The ignored bits (R52, R56 of spec/30_encoding.md; decision D3): two words that agree outside bits 26:25 and 14:12
classify and decode alike; two LR words may differ in bits 24:20 as well. -/
def Obligations.IgnoredBitsChangeNothing : Prop :=
  (∀ w v : IWord, w &&& 0xF9FF8FFF#32 = v &&& 0xF9FF8FFF#32 → isAtomic w = isAtomic v ∧ decodeWord w = decodeWord v) ∧
  (∀ w v : IWord, w &&& 0xF800007F#32 = 0x1000002F#32 → w &&& 0xF80F8FFF#32 = v &&& 0xF80F8FFF#32 →
    decodeWord w = decodeWord v)

/-- R57 and R58 (spec/30_encoding.md) as a trichotomy: a word is one of the eleven instructions, or its opcode differs
(`NotAtomic`), or its opcode is right and its subcode is one of the 21 listed (`UnknownSubcode`); the three exclude each
other. The subcodes are log entry 2's. -/
def Obligations.EveryWordHasOneClassification : Prop :=
  ∀ w : IWord,
    (decodeWord w = .error .notAtomic ↔ w &&& 0x7F#32 ≠ 0x2F#32) ∧
    (decodeWord w = .error .unknownSubcode ↔ w &&& 0x7F#32 = 0x2F#32 ∧ w.extractLsb' 27 5 ∈ unallocated) ∧
    ((∃ i, decodeWord w = .ok i) ↔ w &&& 0x7F#32 = 0x2F#32 ∧ w.extractLsb' 27 5 ∉ unallocated)

/-- The byte decoder reads the four bytes of a word in either byte order as the word itself, and leaves the bytes after
them (R33 of spec/20_memory.md, R49 of spec/30_encoding.md; log entry 3). -/
def Obligations.ByteDecoderReadsTheWord : Prop :=
  ∀ (e : Endian) (w : IWord) (rest : List Byte),
    (∀ i, decodeWord w = .ok i → decodeBytes e (wordToBytes e w ++ rest) = .ok (i, rest)) ∧
    (∀ r, decodeWord w = .error r → decodeBytes e (wordToBytes e w ++ rest) = .error (.unhandled r))

/-! ### The unit on words that are no instruction -/

/-- R70 (spec/40_decode_dispatch.md), whole: nothing changes, no request is made, no register is read (the outcome is the
same whatever a slot holds), and no field is extracted (it is the same for every such word). -/
def Obligations.NonAtomicWordChangesNothing : Prop :=
  ∀ (w : IWord) (s : State), isAtomic w = false →
    ∃ t, unitStep w s = .next t ∧ t.result = some (.unhandled .notAtomic) ∧
      t.port = s.port ∧ t.res = s.res ∧ t.x = s.x ∧ t.mem = s.mem ∧ t.pc = s.pc ∧
      (∀ (k : RegIdx) (v : Word), unitStep w (s.setReg k v) = .next (t.setReg k v)) ∧
      (∀ w' : IWord, isAtomic w' = false → unitStep w' s = .next t)

/-- R71 (spec/40_decode_dispatch.md; that `RES` stays is marked derived there), the source's example subcode included. -/
def Obligations.UnknownSubcodeChangesNothing : Prop :=
  (∀ (w : IWord) (s : State), isAtomic w = true → (∀ o, funct5 o ≠ (decodeFields w).subcode) →
    ∃ t, unitStep w s = .next t ∧ t.result = some (.unhandled .unknownSubcode) ∧
      t.port = s.port ∧ t.res = s.res ∧ t.x = s.x ∧ t.mem = s.mem ∧ t.pc = s.pc) ∧
  (∀ o, funct5 o ≠ 0b00110#5)

/-! ### LR and SC -/

/-- R78 (spec/41_lr_sc.md): encoding, effect, frame, and the stop where the port refuses the read (R37, decision D6; log
entry 7). -/
def Obligations.LrReservesAndLoads : Prop :=
  (∀ w : IWord, w &&& 0xF800007F#32 = 0x1000002F#32 → decodeWord w = .ok (.lr (regField w 7) (regField w 15))) ∧
  ∀ (rd rs1 : RegIdx) (s : State),
    (Admitted s .read (s.reg rs1) →
      ∃ t, exec (.lr rd rs1) s = .next t ∧ t.res = s.reg rs1 ∧ t.reg rd = s.wordAt (s.reg rs1) ∧ MemSame s t ∧
        t.port = s.port ++ [.read (s.reg rs1)] ∧ Frame rd s t) ∧
    (∀ e, portRefusal s.plat .read (s.reg rs1) = some e → exec (.lr rd rs1) s = .fault e)

/-- SC on a match (R79 of spec/41_lr_sc.md; its encoding is log entry 2's and stands in another statement): the word
stored, the code 0, the reservation cleared, the frame, and the stop where the port refuses the write. -/
def Obligations.ScOnMatchStoresAndClears : Prop :=
  ∀ (rd rs1 rs2 : RegIdx) (s : State), s.reg rs1 = s.res →
    (s.mem.wf = true → Admitted s .write (s.reg rs1) →
      ∃ t, exec (.sc rd rs1 rs2) s = .next t ∧ t.reg rd = 0#32 ∧ t.wordAt (s.reg rs1) = s.reg rs2 ∧
        MemSameOutside (s.reg rs1) s t ∧ t.res = 0#32 ∧ Frame rd s t) ∧
    (∀ e, portRefusal s.plat .write (s.reg rs1) = some e → exec (.sc rd rs1 rs2) s = .fault e)

/-- SC on a mismatch (R79 of spec/41_lr_sc.md): the code 1, no request, nothing else changed; it completes in every such
state, whatever the port admits. -/
def Obligations.ScOnMismatchOnlyReports : Prop :=
  ∀ (rd rs1 rs2 : RegIdx) (s : State), s.reg rs1 ≠ s.res →
    ∃ t, exec (.sc rd rs1 rs2) s = .next t ∧ t.reg rd = 1#32 ∧ MemSame s t ∧ t.res = s.res ∧ t.port = s.port ∧
      Frame rd s t

/-- R87 (spec/41_lr_sc.md), whole: where a successful SC stores, what, in one request; nothing is read on either path. -/
def Obligations.ScStoresAtTheReservation : Prop :=
  ∀ (rd rs1 rs2 : RegIdx) (s t : State), exec (.sc rd rs1 rs2) s = .next t →
    (s.reg rs1 = s.res → s.mem.wf = true →
      t.port = s.port ++ [.write s.res (s.reg rs2)] ∧ t.wordAt s.res = s.reg rs2 ∧ MemSameOutside s.res s t) ∧
    (s.reg rs1 ≠ s.res → t.port = s.port)

/-- R82 (spec/41_lr_sc.md), whole: a failed SC writes `x[rd]` only, and after `LR A; SC B` an `SC A` still succeeds. The
address register of the last SC is one the failed SC did not overwrite. -/
def Obligations.FailedScKeepsTheReservation : Prop :=
  (∀ (rd rs1 rs2 : RegIdx) (s t : State), s.reg rs1 ≠ s.res → exec (.sc rd rs1 rs2) s = .next t →
    t.res = s.res ∧ t.mem = s.mem ∧ t.port = s.port ∧ t.pc = s.pc ∧ ∀ r, r ≠ rd → t.reg r = s.reg r) ∧
  (∀ (d1 ra d2 rb v2 d3 r3 v3 : RegIdx) (s s1 s2 : State), exec (.lr d1 ra) s = .next s1 →
    s1.reg rb ≠ s.reg ra → exec (.sc d2 rb v2) s1 = .next s2 → s2.reg r3 = s.reg ra →
    Admitted s2 .write (s.reg ra) →
    ∃ t, exec (.sc d3 r3 v3) s2 = .next t ∧ t.reg d3 = 0#32)

/-- Granularity (R85 of spec/41_lr_sc.md): an SC fails at every address that differs from the reservation by any non-zero
amount, overlapping words included, and succeeds at the reservation itself. -/
def Obligations.ScComparesAllAddressBits : Prop :=
  ∀ (rd rs1 rs2 : RegIdx) (s t : State), exec (.sc rd rs1 rs2) s = .next t →
    (∀ k : Word, k ≠ 0#32 → s.reg rs1 = s.res + k → t.reg rd = 1#32 ∧ t.res = s.res ∧ MemSame s t) ∧
    (s.reg rs1 = s.res → t.reg rd = 0#32 ∧ t.res = 0#32)

/-- Reservations do not nest (R86 of spec/41_lr_sc.md): after `LR A; LR B` an `SC A` fails and an `SC B` succeeds, and a
second SC to the same non-zero address fails. -/
def Obligations.SecondLrReplacesTheReservation : Prop :=
  ∀ (d1 ra d2 rb d3 r3 v3 : RegIdx) (s s1 s2 : State), exec (.lr d1 ra) s = .next s1 →
    exec (.lr d2 rb) s1 = .next s2 →
    (s.reg ra ≠ s1.reg rb → s2.reg r3 = s.reg ra →
      ∃ t, exec (.sc d3 r3 v3) s2 = .next t ∧ t.reg d3 = 1#32) ∧
    (s2.reg r3 = s1.reg rb → Admitted s2 .write (s1.reg rb) →
      ∃ t, exec (.sc d3 r3 v3) s2 = .next t ∧ t.reg d3 = 0#32 ∧
        (∀ (d4 r4 v4 : RegIdx), t.reg r4 = s1.reg rb → s1.reg rb ≠ 0#32 →
          ∃ u, exec (.sc d4 r4 v4) t = .next u ∧ u.reg d4 = 1#32))

/-- R80 (spec/41_lr_sc.md), whole: LR sets `RES` to its address (0 included), a successful SC and reset set it to 0, and no
other instruction and no other word writes it. -/
def Obligations.OnlyLrAndSuccessfulScWriteRes : Prop :=
  State.reset.res = 0#32 ∧
  (∀ (i : Instr) (s t : State), exec i s = .next t →
    t.res = (match i with
      | .lr _ rs1 => s.reg rs1
      | .sc _ rs1 _ => if s.reg rs1 = s.res then 0#32 else s.res
      | _ => s.res)) ∧
  (∀ (w : IWord) (r : UnhandledReason) (s t : State), decodeWord w = .error r → unitStep w s = .next t → t.res = s.res)

/-- The same of whole steps, the host's moves included (R77 and R81 of spec/41_lr_sc.md; the host's moves are log entry
12's): a step that changes `RES` is a trap on an LR, which sets it, or on an SC to the reserved address, which clears
it. -/
def Obligations.StepWritesResOnlyByLrOrSc : Prop :=
  ∀ (s t : State), step s = .next t → t.res ≠ s.res →
    ∃ (u v : State) (w : IWord), s.nextTrap = some u ∧ u.enter.fetch = .ok (w, v) ∧
      ((∃ rd rs1, decodeWord w = .ok (.lr rd rs1) ∧ t.res = u.reg rs1) ∨
        ∃ rd rs1 rs2, decodeWord w = .ok (.sc rd rs1 rs2) ∧ u.reg rs1 = s.res ∧ t.res = 0#32)

/-- The source's row of the state machine for the host (R77 table, R81 of spec/41_lr_sc.md; R30 of spec/10_state.md): no
move of the host, whatever it stores, changes `RES`, and the slots, bytes and program counter are as the host left them.
That the host's moves are a list in the state is log entry 12's. -/
def Obligations.HostMovesKeepTheReservation : Prop :=
  ∀ (s : State) (t : HostTurn),
    (s.hostTrap t).res = s.res ∧ (s.hostTrap t).cause = t.cause ∧
    (∀ r, (∀ p ∈ t.regs, p.1 ≠ r) → (s.hostTrap t).reg r = s.reg r) ∧
    (∀ b, (∀ p ∈ t.stores, p.1 ≠ b) → (s.hostTrap t).mem.read b = s.mem.read b) ∧
    (t.pc = none → (s.hostTrap t).pc = s.pc) ∧ (∀ p, t.pc = some p → (s.hostTrap t).pc = p)

/-- Forward progress (R83 of spec/41_lr_sc.md): after an LR to `a`, any stretch of host moves and of emulated words other
than LR and other than an SC to `a`, an SC whose address is `a` succeeds at its first attempt and memory holds its
operand. -/
def Obligations.ScAfterQuietStretchSucceeds : Prop :=
  ∀ (rd rs1 rd' rs1' rs2' : RegIdx) (s s1 s2 : State), s.mem.wf = true → exec (.lr rd rs1) s = .next s1 →
    Quiet (s.reg rs1) s1 s2 → s2.reg rs1' = s.reg rs1 → Admitted s2 .write (s.reg rs1) →
    ∃ t, exec (.sc rd' rs1' rs2') s2 = .next t ∧ t.reg rd' = 0#32 ∧
      t.wordAt (s.reg rs1) = s2.reg rs2' ∧ t.res = 0#32

/-- R84 (spec/41_lr_sc.md, decision D8), its three consequences: (a) with `RES = 0` an SC at address 0 succeeds without an LR; (b) an
LR at address 0 leaves `RES = 0`, and the SC at 0 after it leaves `RES = 0` again; (c) with `RES = 0` an SC at a non-zero
address fails. -/
def Obligations.AddressZeroWithoutAReservation : Prop :=
  (∀ (rd rs1 rs2 : RegIdx) (s : State), s.res = 0#32 → s.reg rs1 = 0#32 → s.mem.wf = true → Admitted s .write 0#32 →
    ∃ t, exec (.sc rd rs1 rs2) s = .next t ∧ t.reg rd = 0#32 ∧ t.wordAt 0#32 = s.reg rs2 ∧ t.res = 0#32) ∧
  (∀ (rd rs1 : RegIdx) (s t : State), s.reg rs1 = 0#32 → exec (.lr rd rs1) s = .next t → t.res = 0#32) ∧
  (∀ (rd rs1 rs2 : RegIdx) (s : State), s.res = 0#32 → s.reg rs1 ≠ 0#32 →
    ∃ t, exec (.sc rd rs1 rs2) s = .next t ∧ t.reg rd = 1#32 ∧ MemSame s t ∧ t.res = 0#32)

/-- Dropping a reservation (R134 of spec/70_reset_and_hazards.md): an LR on a scratch word and an SC to the same word
leave no reservation, whatever was reserved before. -/
def Obligations.ScratchPairDropsTheReservation : Prop :=
  ∀ (d1 r1 d2 r2 v2 : RegIdx) (s s1 s2 : State), exec (.lr d1 r1) s = .next s1 → s1.reg r2 = s.reg r1 →
    exec (.sc d2 r2 v2) s1 = .next s2 → s2.res = 0#32

/-! ### The nine AMOs (the operand is sampled before `x[rd]` is written: decision D7, log entry 10) -/

/-- AMOSWAP (spec/42_amo.md). -/
def Obligations.AmoswapStoresTheOperand : Prop := AmoEffect .amoswap (fun _ v => v)

/-- AMOADD (spec/42_amo.md): the sum of the unsigned values modulo `2^32`. -/
def Obligations.AmoaddStoresTheSumModulo : Prop :=
  AmoEffect .amoadd (fun old v => BitVec.ofNat 32 ((old.toNat + v.toNat) % 2 ^ 32))

/-- AMOXOR (spec/42_amo.md), bit by bit. -/
def Obligations.AmoxorStoresTheExclusiveOr : Prop := AmoEffect .amoxor (fun old v => old ^^^ v)

/-- AMOAND (spec/42_amo.md). -/
def Obligations.AmoandStoresTheConjunction : Prop := AmoEffect .amoand (fun old v => old &&& v)

/-- AMOOR (spec/42_amo.md). -/
def Obligations.AmoorStoresTheDisjunction : Prop := AmoEffect .amoor (fun old v => old ||| v)

/-- AMOMIN (spec/42_amo.md): the lesser as two's-complement values. -/
def Obligations.AmominStoresTheSignedLesser : Prop :=
  AmoEffect .amomin (fun old v => BitVec.ofInt 32 (min old.toInt v.toInt))

/-- AMOMAX (spec/42_amo.md): the greater as two's-complement values. -/
def Obligations.AmomaxStoresTheSignedGreater : Prop :=
  AmoEffect .amomax (fun old v => BitVec.ofInt 32 (max old.toInt v.toInt))

/-- AMOMINU (spec/42_amo.md): the lesser as unsigned values. -/
def Obligations.AmominuStoresTheUnsignedLesser : Prop :=
  AmoEffect .amominu (fun old v => BitVec.ofNat 32 (min old.toNat v.toNat))

/-- AMOMAXU (spec/42_amo.md): the greater as unsigned values. -/
def Obligations.AmomaxuStoresTheUnsignedGreater : Prop :=
  AmoEffect .amomaxu (fun old v => BitVec.ofNat 32 (max old.toNat v.toNat))

/-- Slot 0 is an ordinary slot for every instruction, whichever of its fields are 0 (R15 of spec/10_state.md, R106 (d), (e),
(f) of spec/42_amo.md; decisions D7 and D9, log entries 10 and 14): it keeps what is written to it; exchanging slot 0 with
any slot `k`, in the register fields and in the state, exchanges them in the outcome and changes nothing else, stops
included; with `rd = 0` it receives the value of R27's table. AMOADD on slot 0 as address, operand and destination at once
reads it as it is, samples it before it is written, and leaves the old word in it. -/
def Obligations.SlotZeroIsAnOrdinarySlot : Prop :=
  (∀ (s : State) (v : Word), (s.setReg 0 v).reg 0 = v) ∧
  (∀ (k : RegIdx) (i : Instr) (s : State),
    (∀ t, exec i s = .next t → exec (swapZeroInstr k i) (s.swapZero k) = .next (t.swapZero k)) ∧
    (∀ f, exec i s = .fault f → exec (swapZeroInstr k i) (s.swapZero k) = .fault f)) ∧
  (∀ (i : Instr) (s t : State), i.rd = 0 → exec i s = .next t → t.reg 0 = valueWritten i s) ∧
  ∀ s : State, s.mem.wf = true → Admitted s .read (s.reg 0) → Admitted s .write (s.reg 0) →
    ∃ t, exec (.amoadd 0 0 0) s = .next t ∧ t.reg 0 = s.wordAt (s.reg 0) ∧
      t.wordAt (s.reg 0) = s.wordAt (s.reg 0) + s.reg 0

/-- Where the signed and unsigned families differ (R103 of spec/42_amo.md): exactly when the sign bits do. -/
def Obligations.SignedAndUnsignedDifferBySignBits : Prop :=
  ∀ a b : Word, (amoMinFn a b ≠ amoMinuFn a b ↔ a.msb ≠ b.msb) ∧ (amoMaxFn a b ≠ amoMaxuFn a b ↔ a.msb ≠ b.msb)

/-- AMOs and the reservation (R104 of spec/42_amo.md): an AMO neither writes `RES` nor reads it, and an SC after an AMO to
the reserved word still succeeds. -/
def Obligations.AmoNeitherReadsNorWritesRes : Prop :=
  ∀ (i : Instr) (s t : State), isAmo i = true → exec i s = .next t →
    t.res = s.res ∧
    (∀ r : Word, exec i (s.setRes r) = .next (t.setRes r)) ∧
    (∀ (rd rs1 rs2 : RegIdx), t.reg rs1 = s.res → Admitted t .write s.res →
      ∃ u, exec (.sc rd rs1 rs2) t = .next u ∧ u.reg rd = 0#32)

/-! ### All instructions -/

/-- R27 (spec/10_state.md), whole: a handled operation writes the slot `x[rd]` with the value of the table, whether or not
`rd` is also a slot read, and writes no other slot; its outcome does not depend on a slot it does not read; an unhandled
word reads and writes no slot. -/
def Obligations.OneSlotWrittenNamedSlotsRead : Prop :=
  (∀ (i : Instr) (s t : State), exec i s = .next t →
    t.reg i.rd = valueWritten i s ∧
    (∀ r, r ≠ i.rd → t.reg r = s.reg r) ∧
    (∀ (k : RegIdx) (v : Word), k ∉ readSlots i s →
      ∃ t', exec i (s.setReg k v) = .next t' ∧ t'.reg i.rd = t.reg i.rd ∧ t'.mem = t.mem ∧ t'.res = t.res ∧
        t'.port = t.port ∧ t'.result = t.result)) ∧
  (∀ (w : IWord) (r : UnhandledReason) (s : State), decodeWord w = .error r →
    ∃ t, unitStep w s = .next t ∧ t.x = s.x ∧ ∀ (k : RegIdx) (v : Word), unitStep w (s.setReg k v) = .next (t.setReg k v))

/-- The unit and the program counter (R75 of spec/40_decode_dispatch.md): the unit neither reads nor writes the program counter, on both results. -/
def Obligations.UnitNeverTouchesPc : Prop :=
  ∀ (w : IWord) (s : State),
    (∀ t, unitStep w s = .next t → t.pc = s.pc ∧ ∀ p : Word, unitStep w (s.setPc p) = .next (t.setPc p)) ∧
    (∀ f, unitStep w s = .fault f → ∀ p : Word, unitStep w (s.setPc p) = .fault f)

/-- R72 (spec/40_decode_dispatch.md), whole: the outcome of an invocation that is not stopped by the port is the whole
effect of the operation with `Handled`, or the state before with `Unhandled`; no operation once selected is unhandled. -/
def Obligations.InvocationIsAllOrNothing : Prop :=
  ∀ (w : IWord) (s t : State), unitStep w s = .next t →
    (∃ i, decodeWord w = .ok i ∧ exec i s = .next t ∧ t.result = some .handled) ∨
    (∃ r, decodeWord w = .error r ∧ t.result = some (.unhandled r) ∧
      t.x = s.x ∧ t.mem = s.mem ∧ t.res = s.res ∧ t.pc = s.pc ∧ t.port = s.port)

/-- The request table of R39 (spec/20_memory.md): which requests each invocation makes, in order and with their values
(`dataRequests`); in particular an AMO makes its write whatever the value. The boundary's one request is the fetch,
before the unit's. -/
def Obligations.RequestsAreThoseOfTheTable : Prop :=
  (∀ (i : Instr) (s t : State), exec i s = .next t → t.port = s.port ++ dataRequests i s) ∧
  (∀ (w : IWord) (r : UnhandledReason) (s t : State), decodeWord w = .error r → unitStep w s = .next t →
    t.port = s.port) ∧
  (∀ s t : State, s.boundary = .dispatch → s.cause = illegalCause s.plat → step s = .next t →
    (∀ i, decodeWord (s.wordAt s.pc) = .ok i → t.port = .read s.pc :: dataRequests i s) ∧
    (∀ r, decodeWord (s.wordAt s.pc) = .error r → t.port = [.read s.pc]))

/-! ### Memory and the port -/

/-- Byte order (R33 of spec/20_memory.md, decision D4; log entry 3): under little-endian the byte at `a + k` holds bits
`8k+7 : 8k` of the word, for a load and for a store; under the other value of `ENDIAN` the bytes are the other way
round. -/
def Obligations.BytesOfAWordInOrder : Prop :=
  ∀ (m : Memory) (a v : Word), m.wf = true →
    (∀ k : Nat, k < 4 →
      (m.loadWord .little a).extractLsb' (8 * k) 8 = m.read (a + BitVec.ofNat 32 k) ∧
      (m.storeWord .little a v).read (a + BitVec.ofNat 32 k) = v.extractLsb' (8 * k) 8 ∧
      (m.loadWord .big a).extractLsb' (8 * (3 - k)) 8 = m.read (a + BitVec.ofNat 32 k) ∧
      (m.storeWord .big a v).read (a + BitVec.ofNat 32 k) = v.extractLsb' (8 * (3 - k)) 8)

/-- R32 (spec/20_memory.md): a word written by an admitted request is what an admitted read of it returns, the bytes outside
it are unchanged, and neither request consults or changes `RES`. -/
def Obligations.ReadReturnsTheWordWritten : Prop :=
  ∀ (s : State) (a v : Word), s.mem.wf = true → Admitted s .write a →
    ∃ s1, s.memWrite a v = .ok s1 ∧ s1.res = s.res ∧ MemSameOutside a s s1 ∧
      (Admitted s .read a → ∃ s2, s1.memRead a = .ok (v, s2) ∧ s2.res = s.res ∧ s2.mem = s1.mem) ∧
      (∀ r : Word, (s.setRes r).memWrite a v = .ok (s1.setRes r))

/-- Which data requests and which fetches the port admits, the fault where it does not, and the stop of a trap whose fetch
is refused (R35, R37, R46 of spec/20_memory.md, decisions D5, D6, D11; log entries 6 and 7). -/
def Obligations.PortAdmitsByPolicyAndRegion : Prop :=
  (∀ (p : Platform) (k : AccessKind) (a : Word),
    (portRefusal p k a = none ↔ (a.toNat % 4 = 0 ∨ p.misaligned = .bytewise) ∧ InRegions p k a) ∧
    (a.toNat % 4 = 0 ∨ p.misaligned = .bytewise → ¬ InRegions p k a → portRefusal p k a = some (.notAdmitted k a)) ∧
    (a.toNat % 4 ≠ 0 → p.misaligned = .refuse → portRefusal p k a = some (.dataMisaligned k a)) ∧
    (a.toNat % 4 ≠ 0 → p.misaligned = .trap → portRefusal p k a = some (.nestedTrap k a))) ∧
  (∀ (p : Platform) (pc : Word),
    (fetchRefusal p pc = none ↔ (pc.toNat % 4 = 0 ∨ p.fetch = .bytewise) ∧ InRegions p .read pc) ∧
    (pc.toNat % 4 = 0 ∨ p.fetch = .bytewise → ¬ InRegions p .read pc →
      fetchRefusal p pc = some (.notAdmitted .read pc)) ∧
    (pc.toNat % 4 ≠ 0 → p.fetch = .refuse → fetchRefusal p pc = some (.fetchMisaligned pc))) ∧
  (∀ (s : State) (f : Fault), s.boundary = .dispatch → s.cause = illegalCause s.plat →
    fetchRefusal s.plat s.pc = some f → step s = .fault f)

/-! ### The boundary and the step -/

/-- A step runs the decoded instruction: with an illegal-instruction trap presented, or after `Resume` with no move of the
host left (log entry 13), when the word at `pc` can be fetched and decodes to `i`, the step is `exec i` on the state with
fresh outputs and the fetch recorded, and then the boundary's advance of `pc` and `Resume`. -/
def Obligations.StepRunsTheDecodedInstruction : Prop :=
  ∀ (s : State) (i : Instr),
    (s.boundary = .dispatch ∧ s.cause = illegalCause s.plat) ∨ (s.boundary = .resume ∧ s.host = []) →
    fetchRefusal s.plat s.pc = none → decodeWord (s.wordAt s.pc) = .ok i →
    step s = resumeAfter s.pc (exec i s.fetchedHere)

/-- The program-counter advance (R110 of spec/60_exceptions.md): exactly 4, modulo `2^32` (decision D10, log entry 11), on
every handled word, and the boundary resumes; a failed SC is one of them. -/
def Obligations.HandledWordAdvancesPc : Prop :=
  (∀ s t : State, s.boundary = .dispatch → step s = .next t → t.result = some .handled →
    t.boundary = .resume ∧ t.pc.toNat = (s.pc.toNat + 4) % 2 ^ 32) ∧
  (∀ (s : State) (rd rs1 rs2 : RegIdx), s.boundary = .dispatch → s.cause = illegalCause s.plat →
    fetchRefusal s.plat s.pc = none → decodeWord (s.wordAt s.pc) = .ok (.sc rd rs1 rs2) → s.reg rs1 ≠ s.res →
    ∃ t, step s = .next t ∧ t.boundary = .resume ∧ t.pc = s.pc + 4#32 ∧ t.reg rd = 1#32 ∧ t.port = [.read s.pc])

/-- R111 (spec/60_exceptions.md), whole: on `Unhandled` the frame, memory and `RES` are as the host saved them and the
boundary forwards to the exception handler. -/
def Obligations.UnhandledWordIsForwarded : Prop :=
  ∀ (s : State) (r : UnhandledReason), s.boundary = .dispatch → s.cause = illegalCause s.plat →
    fetchRefusal s.plat s.pc = none → decodeWord (s.wordAt s.pc) = .error r →
    ∃ t, step s = .next t ∧ t.result = some (.unhandled r) ∧ t.x = s.x ∧ t.pc = s.pc ∧ t.mem = s.mem ∧ t.res = s.res ∧
      t.port = [.read s.pc] ∧ ∃ view, t.boundary = .forward (.exceptionHandler view)

/-- What the exception handler is shown (R112 of spec/60_exceptions.md, decision D21): the parts of the frame `CTX_VIEW`
lists, in its order, each with its value in the frame, and nothing that tells the two reasons apart. -/
def Obligations.HandlerSeesTheContextView : Prop :=
  ∀ (s t : State) (view : List (FrameItem × Word)), s.boundary = .dispatch → step s = .next t →
    t.boundary = .forward (.exceptionHandler view) →
    view.map Prod.fst = s.plat.ctxView ∧
    (∀ i v, (FrameItem.x i, v) ∈ view → v = s.reg i) ∧ (∀ v, (FrameItem.pc, v) ∈ view → v = s.pc)

/-- R113 (spec/60_exceptions.md), whole: any other exception goes to the exception handler; no fetch, no invocation, `RES`
untouched. -/
def Obligations.OtherExceptionIsForwarded : Prop :=
  ∀ s : State, s.boundary = .dispatch → s.cause.isInterrupt = false → s.cause.code ≠ s.plat.excIllegal →
    ∃ t, step s = .next t ∧ (∃ view, t.boundary = .forward (.exceptionHandler view)) ∧ t.result = none ∧
      t.port = [] ∧ t.res = s.res ∧ t.x = s.x ∧ t.pc = s.pc ∧ t.mem = s.mem

/-- R115 and R116 (spec/60_exceptions.md), whole, with R114's selection: a code in range whose entry is not reserved calls
that entry's handler, a reserved entry or a code out of range calls the default handler. -/
def Obligations.InterruptSelectsItsHandler : Prop :=
  ∀ s : State, s.boundary = .dispatch → s.cause.isInterrupt = true →
    ∃ t, step s = .next t ∧
      (∀ e : VectorEntry, s.plat.vt[s.cause.code]? = some e → e.reserved = false →
        t.boundary = .forward (.vectorHandler e.handler)) ∧
      (∀ e : VectorEntry, s.plat.vt[s.cause.code]? = some e → e.reserved = true →
        t.boundary = .forward .defaultHandler) ∧
      (s.cause.code ≥ s.plat.vt.length → t.boundary = .forward .defaultHandler)

/-- The interrupt path (R129 of spec/60_exceptions.md): the unit is not invoked, no fetch is made, and the frame, memory and
`RES` are left alone. -/
def Obligations.InterruptLeavesFrameAndRes : Prop :=
  ∀ s t : State, s.boundary = .dispatch → s.cause.isInterrupt = true → step s = .next t →
    t.result = none ∧ t.port = [] ∧ t.x = s.x ∧ t.pc = s.pc ∧ t.mem = s.mem ∧ t.res = s.res

/-- One external call per forwarding path and none on the resume path (R107, R119 of spec/60_exceptions.md): a trap ends in
`Resume` with the result `Handled`, or in one call with another result or none. -/
def Obligations.TrapResumesOrCallsOneHandler : Prop :=
  ∀ s t : State, s.boundary = .dispatch → step s = .next t →
    (t.boundary = .resume ∧ t.result = some .handled ∧ s.cause = illegalCause s.plat) ∨
    (∃ c, t.boundary = .forward c ∧ t.result ≠ some .handled ∧ t.x = s.x ∧ t.pc = s.pc ∧ t.mem = s.mem ∧ t.res = s.res)

/-- The unit waits to be invoked (R133 of spec/70_reset_and_hazards.md). With no trap presented and no move of the host left,
nothing changes: while the boundary waits or has forwarded, and after `Resume` where no atomic word can be fetched at `pc`;
that this is a step is log entry 12's. After `Resume` with an atomic word there, the step is the trap on it (log entry 13).
A move of the host left makes the next step its trap. -/
def Obligations.UnitWaitsToBeInvoked : Prop :=
  (∀ s : State, s.boundary = .waiting ∨ (∃ c, s.boundary = .forward c) → s.host = [] → step s = .next s) ∧
  (∀ s : State, s.boundary = .resume → s.host = [] →
    ((fetchRefusal s.plat s.pc = none → isAtomic (s.wordAt s.pc) = false) → s.nextTrap = none ∧ step s = .next s) ∧
    (fetchRefusal s.plat s.pc = none → isAtomic (s.wordAt s.pc) = true →
      step s = trapEntry { s with cause := illegalCause s.plat, boundary := .dispatch })) ∧
  (∀ (s : State) (t : HostTurn) (rest : List HostTurn), s.boundary ≠ .dispatch → s.host = t :: rest →
    step s = trapEntry (({ s with host := rest } : State).hostTrap t))

/-- A fetch reads the bytes that are in memory now (R47 of spec/20_memory.md, decision D17): a word stored at `pc`, in either
byte order, is the word the next step fetches and decodes. -/
def Obligations.FetchSeesTheWordInMemory : Prop :=
  ∀ (s : State) (v : Word), s.mem.wf = true → fetchRefusal s.plat s.pc = none →
    (∃ s1, (s.setMem (s.mem.storeWord s.plat.endian s.pc v)).fetch = .ok (v, s1)) ∧
    (∀ i, decodeWord v = .ok i →
      step (s.withFetchWord 32 v.toNat) = resumeAfter s.pc (exec i (s.withFetchWord 32 v.toNat).fetchedHere)) ∧
    (∀ r, decodeWord v = .error r →
      ∃ t, step (s.withFetchWord 32 v.toNat) = .next t ∧ t.result = some (.unhandled r))

/-! ### The whole machine -/

/-- The invariant holds at reset, where the unit waits to be invoked (R133 of spec/70_reset_and_hazards.md) and no output of
a trap stands. The clauses on outputs and on memory's form rest on log entries 5 and 16. -/
def Obligations.ResetMeetsTheInvariant : Prop :=
  State.reset.Inv ∧ State.reset.boundary = .waiting ∧ State.reset.result = none ∧ State.reset.port = []

/-- Every step keeps the invariant. Its clauses on the canonical form of memory and on the stored outputs (result, requests,
the boundary's state) are the model's choice: log entries 5 and 16. -/
def Obligations.StepKeepsTheInvariant : Prop := ∀ s t : State, s.Inv → step s = .next t → t.Inv

/-- No step changes the open parameters or refuses an instruction. -/
def Obligations.StepKeepsPlatformNeverRefuses : Prop :=
  (∀ s t : State, step s = .next t → t.plat = s.plat) ∧ (∀ (s : State) (r : Refusal), step s ≠ .refused r)

/-- A step stops exactly where the port does not admit a request of the step's own trap (R37 of spec/20_memory.md, R117 and
R119 of spec/60_exceptions.md; that a stop is a fault without a state is log entry 7's): the fetch at the `pc` of the trap
taken, or else the first of the requests that the instruction fetched makes which is not admitted; and then by that
request's own fault. -/
def Obligations.OnlyThePortStopsAStep : Prop :=
  ∀ (s : State) (f : Fault), step s = .fault f ↔
    ∃ u : State, s.nextTrap = some u ∧ u.cause = illegalCause u.plat ∧
      (fetchRefusal u.plat u.pc = some f ∨
        fetchRefusal u.plat u.pc = none ∧
          ∃ i, decodeWord (u.wordAt u.pc) = .ok i ∧ firstRefusal u.plat (dataRequests i u) = some f)

/-- Every invocation ends (R149 of spec/70_reset_and_hazards.md, R64 of spec/40_decode_dispatch.md): where the port admits
every request, every instruction completes and every step has a next state. -/
def Obligations.StepIsTotalWhereThePortAdmits : Prop :=
  ∀ s : State, AdmitsAll s.plat → (∀ i : Instr, ∃ t, exec i s = .next t) ∧ (∃ t, step s = .next t)

/-- R131 (spec/70_reset_and_hazards.md), whole: `RES` is 0 at reset, and while it is 0 an SC to a non-zero address fails
and an SC to address 0 succeeds, and every instruction but LR leaves it 0. -/
def Obligations.ResetHoldsNoReservation : Prop :=
  State.reset.res = 0#32 ∧
  ∀ s : State, s.res = 0#32 →
    (∀ (rd rs1 rs2 : RegIdx), s.reg rs1 ≠ 0#32 → ∃ t, exec (.sc rd rs1 rs2) s = .next t ∧ t.reg rd = 1#32) ∧
    (∀ (rd rs1 rs2 : RegIdx), s.reg rs1 = 0#32 → Admitted s .write 0#32 →
      ∃ t, exec (.sc rd rs1 rs2) s = .next t ∧ t.reg rd = 0#32) ∧
    (∀ (i : Instr) (t : State), i.op ≠ .lr → exec i s = .next t → t.res = 0#32)
end

