-- ==== Sys2Proof/Laws/Memory.lean ====
section
/-! SUPPORT. The laws of memory: reading after a write, and the canonical form that every operation keeps. -/

namespace Sys2Proof.Machine

open Sys2Proof

/-! ### Cells -/

/-- Below the bound of a well-formed list nothing is listed. -/
theorem cellsGet_of_lt {fill : Byte} {l : List Host.Cell} {lo a : Nat} (h : cellsWf fill (some lo) l = true)
    (ha : a ≤ lo) : cellsGet fill l a = fill := by
  induction l generalizing lo with
  | nil => rfl
  | cons p t ih =>
    obtain ⟨k, v⟩ := p
    simp only [cellsWf, Bool.and_eq_true, decide_eq_true_eq] at h
    obtain ⟨⟨⟨hk, -⟩, -⟩, ht⟩ := h
    have : k ≠ a := by omega
    simp [cellsGet, this, ih ht (by omega)]

/-- The byte just written. -/
theorem cellsGet_cellsPut_same {fill : Byte} {l : List Host.Cell} {lo : Option Nat} (h : cellsWf fill lo l = true)
    (a : Nat) (b : Byte) : cellsGet fill (cellsPut fill l a b) a = b := by
  induction l generalizing lo with
  | nil => simp only [cellsPut]; split <;> simp_all [cellsGet]
  | cons p t ih =>
    obtain ⟨k, v⟩ := p
    simp only [cellsWf, Bool.and_eq_true, decide_eq_true_eq] at h
    obtain ⟨-, ht⟩ := h
    simp only [cellsPut]
    split
    · split
      · rename_i h1 h2
        have : k ≠ a := by omega
        simp [cellsGet, this, cellsGet_of_lt ht (Nat.le_of_lt h1), h2]
      · simp [cellsGet]
    · split
      · rename_i h1 h2
        subst h2
        split
        · rename_i h3
          simp [cellsGet_of_lt ht (Nat.le_refl _), h3]
        · simp [cellsGet]
      · rename_i h1 h2
        have : k ≠ a := fun e => h2 e.symm
        simp [cellsGet, this, ih ht]

/-- Every other byte, in any list of cells. -/
theorem cellsGet_cellsPut_other (fill : Byte) (l : List Host.Cell) (a c : Nat) (b : Byte) (hc : c ≠ a) :
    cellsGet fill (cellsPut fill l a b) c = cellsGet fill l c := by
  induction l with
  | nil => simp only [cellsPut]; split <;> simp [cellsGet, Ne.symm hc]
  | cons p t ih =>
    obtain ⟨k, v⟩ := p
    simp only [cellsPut]
    split
    · split <;> simp [cellsGet, Ne.symm hc]
    · split
      · rename_i h1 h2
        subst h2
        split <;> simp [cellsGet, Ne.symm hc]
      · simp [cellsGet, ih]

/-- A write keeps the canonical form of the cells. -/
theorem cellsWf_cellsPut {fill : Byte} {l : List Host.Cell} {lo : Option Nat} (h : cellsWf fill lo l = true) {a : Nat}
    (ha : a < 2 ^ 32) (hlo : ∀ n, lo = some n → n < a) (b : Byte) : cellsWf fill lo (cellsPut fill l a b) = true := by
  induction l generalizing lo with
  | nil =>
    simp only [cellsPut]
    split
    · rfl
    · cases lo <;> simp_all [cellsWf]
  | cons p t ih =>
    obtain ⟨k, v⟩ := p
    have h0 := h
    simp only [cellsWf, Bool.and_eq_true, decide_eq_true_eq] at h
    obtain ⟨⟨⟨hk, hk2⟩, hv⟩, ht⟩ := h
    simp only [cellsPut]
    split
    · rename_i h1
      split
      · exact h0
      · rename_i h2
        cases lo <;> simp_all [cellsWf]
    · rename_i h1
      split
      · rename_i h2
        subst h2
        split
        · cases t with
          | nil => rfl
          | cons q t =>
            obtain ⟨k', v'⟩ := q
            simp only [cellsWf, Bool.and_eq_true, decide_eq_true_eq] at ht ⊢
            obtain ⟨⟨⟨hk', hk2'⟩, hv'⟩, ht'⟩ := ht
            refine ⟨⟨⟨?_, hk2'⟩, hv'⟩, ht'⟩
            cases lo with
            | none => rfl
            | some n => have := hlo n rfl; simp; omega
        · rename_i h3
          simp only [cellsWf, Bool.and_eq_true, decide_eq_true_eq]
          exact ⟨⟨⟨hk, hk2⟩, h3⟩, ht⟩
      · simp only [cellsWf, Bool.and_eq_true, decide_eq_true_eq]
        exact ⟨⟨⟨hk, hk2⟩, hv⟩, ih ht (fun n hn => by simp at hn; omega)⟩

/-! ### Bytes -/

@[simp] theorem write_fill (m : Memory) (a : Word) (b : Byte) : (m.write a b).fill = m.fill := rfl

/-- The byte just written. -/
theorem read_write_same {m : Memory} (h : m.wf = true) (a : Word) (b : Byte) : (m.write a b).read a = b :=
  cellsGet_cellsPut_same h _ _

/-- Every other byte, in any memory. -/
theorem read_write_other (m : Memory) {a c : Word} (b : Byte) (hc : c ≠ a) : (m.write a b).read c = m.read c :=
  cellsGet_cellsPut_other _ _ _ _ _ (fun e => hc (BitVec.eq_of_toNat_eq e))

/-- A write keeps the canonical form. -/
theorem wf_write {m : Memory} (h : m.wf = true) (a : Word) (b : Byte) : (m.write a b).wf = true :=
  cellsWf_cellsPut h a.isLt (fun _ hn => by cases hn) _

/-- Any list of writes keeps the canonical form. -/
theorem wf_writeBytes (l : List (Word × Byte)) {m : Memory} (h : m.wf = true) : (m.writeBytes l).wf = true := by
  induction l generalizing m with
  | nil => exact h
  | cons p t ih => exact ih (wf_write h p.1 p.2)

/-- A byte that a list of writes does not name reads as before. -/
theorem read_writeBytes_other (l : List (Word × Byte)) (m : Memory) (c : Word) (h : ∀ p ∈ l, p.1 ≠ c) :
    (m.writeBytes l).read c = m.read c := by
  induction l generalizing m with
  | nil => rfl
  | cons p t ih =>
    have hp : c ≠ p.1 := (h p (by simp)).symm
    rw [Memory.writeBytes, ih _ (fun q hq => h q (by simp [hq])), read_write_other _ _ hp]

/-! ### Words -/

/-- The value of a concatenation. -/
theorem toNat_append_add {m n : Nat} (x : BitVec m) (y : BitVec n) : (x ++ y).toNat = x.toNat * 2 ^ n + y.toNat := by
  rw [BitVec.toNat_append, ← Nat.shiftLeft_add_eq_or_of_lt y.isLt, Nat.shiftLeft_eq]

/-- A stored word as four byte writes. -/
theorem storeWord_eq (m : Memory) (e : Endian) (a v : Word) :
    ∃ b0 b1 b2 b3, m.storeWord e a v = (((m.write a b0).write (a + 1) b1).write (a + 2) b2).write (a + 3) b3 ∧
      bytesToWord e b0 b1 b2 b3 = v := by
  have hs : ∀ v : Word, byteOf v 3 ++ byteOf v 2 ++ byteOf v 1 ++ byteOf v 0 = v := by
    intro v
    apply BitVec.eq_of_toNat_eq
    have := v.isLt
    simp only [byteOf, toNat_append_add, BitVec.extractLsb'_toNat, Nat.shiftRight_eq_div_pow]
    omega
  cases e
  · exact ⟨byteOf v 0, byteOf v 1, byteOf v 2, byteOf v 3, rfl, hs v⟩
  · exact ⟨byteOf v 3, byteOf v 2, byteOf v 1, byteOf v 0, rfl, hs v⟩

/-- Storing a word keeps the canonical form. -/
theorem wf_storeWord {m : Memory} (h : m.wf = true) (e : Endian) (a v : Word) : (m.storeWord e a v).wf = true :=
  wf_writeBytes _ h

/-- The word just stored. -/
theorem loadWord_storeWord_same {m : Memory} (h : m.wf = true) (e : Endian) (a v : Word) :
    (m.storeWord e a v).loadWord e a = v := by
  obtain ⟨b0, b1, b2, b3, hm, hv⟩ := storeWord_eq m e a v
  have w0 := wf_write h a b0
  have w1 := wf_write w0 (a + 1) b1
  have w2 := wf_write w1 (a + 2) b2
  have n01 : a ≠ a + 1 := by bv_omega
  have n02 : a ≠ a + 2 := by bv_omega
  have n03 : a ≠ a + 3 := by bv_omega
  have n12 : a + 1 ≠ a + 2 := by bv_omega
  have n13 : a + 1 ≠ a + 3 := by bv_omega
  have n23 : a + 2 ≠ a + 3 := by bv_omega
  rw [hm, Memory.loadWord, read_write_same w2, read_write_other _ _ n23, read_write_same w1, read_write_other _ _ n13,
    read_write_other _ _ n12, read_write_same w0, read_write_other _ _ n03, read_write_other _ _ n02,
    read_write_other _ _ n01, read_write_same h, hv]

/-- Every byte outside the word stored, in any memory. -/
theorem read_storeWord_other (m : Memory) (e : Endian) (a v : Word) {c : Word} (hc : c ∉ wordAddrs a) :
    (m.storeWord e a v).read c = m.read c := by
  obtain ⟨b0, b1, b2, b3, hm, -⟩ := storeWord_eq m e a v
  simp only [wordAddrs, List.mem_cons, List.not_mem_nil, or_false, not_or] at hc
  obtain ⟨h0, h1, h2, h3⟩ := hc
  rw [hm, read_write_other _ _ h3, read_write_other _ _ h2, read_write_other _ _ h1, read_write_other _ _ h0]

/-- Memory at reset is in its canonical form. -/
theorem reset_memory_wf : State.reset.mem.wf = true := rfl

end Sys2Proof.Machine
end

