-- ==== Sys2Proof/Laws/State.lean ====
section
/-! SUPPORT. One lemma per field per update of the state, and the laws of reading a slot after an update. -/

namespace Sys2Proof.Machine

open Sys2Proof

/-! ### `setReg` -/

@[simp] theorem setReg_x (s : State) (i : RegIdx) (v : Word) : (s.setReg i v).x = s.x.set i.val v i.isLt := rfl
@[simp] theorem setReg_pc (s : State) (i : RegIdx) (v : Word) : (s.setReg i v).pc = s.pc := rfl
@[simp] theorem setReg_res (s : State) (i : RegIdx) (v : Word) : (s.setReg i v).res = s.res := rfl
@[simp] theorem setReg_mem (s : State) (i : RegIdx) (v : Word) : (s.setReg i v).mem = s.mem := rfl
@[simp] theorem setReg_cause (s : State) (i : RegIdx) (v : Word) : (s.setReg i v).cause = s.cause := rfl
@[simp] theorem setReg_boundary (s : State) (i : RegIdx) (v : Word) : (s.setReg i v).boundary = s.boundary := rfl
@[simp] theorem setReg_result (s : State) (i : RegIdx) (v : Word) : (s.setReg i v).result = s.result := rfl
@[simp] theorem setReg_port (s : State) (i : RegIdx) (v : Word) : (s.setReg i v).port = s.port := rfl
@[simp] theorem setReg_host (s : State) (i : RegIdx) (v : Word) : (s.setReg i v).host = s.host := rfl
@[simp] theorem setReg_plat (s : State) (i : RegIdx) (v : Word) : (s.setReg i v).plat = s.plat := rfl

/-! ### `setRes` -/

@[simp] theorem setRes_x (s : State) (v : Word) : (s.setRes v).x = s.x := rfl
@[simp] theorem setRes_pc (s : State) (v : Word) : (s.setRes v).pc = s.pc := rfl
@[simp] theorem setRes_res (s : State) (v : Word) : (s.setRes v).res = v := rfl
@[simp] theorem setRes_mem (s : State) (v : Word) : (s.setRes v).mem = s.mem := rfl
@[simp] theorem setRes_cause (s : State) (v : Word) : (s.setRes v).cause = s.cause := rfl
@[simp] theorem setRes_boundary (s : State) (v : Word) : (s.setRes v).boundary = s.boundary := rfl
@[simp] theorem setRes_result (s : State) (v : Word) : (s.setRes v).result = s.result := rfl
@[simp] theorem setRes_port (s : State) (v : Word) : (s.setRes v).port = s.port := rfl
@[simp] theorem setRes_host (s : State) (v : Word) : (s.setRes v).host = s.host := rfl
@[simp] theorem setRes_plat (s : State) (v : Word) : (s.setRes v).plat = s.plat := rfl

/-! ### `setPc` -/

@[simp] theorem setPc_x (s : State) (v : Word) : (s.setPc v).x = s.x := rfl
@[simp] theorem setPc_pc (s : State) (v : Word) : (s.setPc v).pc = v := rfl
@[simp] theorem setPc_res (s : State) (v : Word) : (s.setPc v).res = s.res := rfl
@[simp] theorem setPc_mem (s : State) (v : Word) : (s.setPc v).mem = s.mem := rfl
@[simp] theorem setPc_cause (s : State) (v : Word) : (s.setPc v).cause = s.cause := rfl
@[simp] theorem setPc_boundary (s : State) (v : Word) : (s.setPc v).boundary = s.boundary := rfl
@[simp] theorem setPc_result (s : State) (v : Word) : (s.setPc v).result = s.result := rfl
@[simp] theorem setPc_port (s : State) (v : Word) : (s.setPc v).port = s.port := rfl
@[simp] theorem setPc_host (s : State) (v : Word) : (s.setPc v).host = s.host := rfl
@[simp] theorem setPc_plat (s : State) (v : Word) : (s.setPc v).plat = s.plat := rfl

/-! ### `setMem` -/

@[simp] theorem setMem_x (s : State) (m : Memory) : (s.setMem m).x = s.x := rfl
@[simp] theorem setMem_pc (s : State) (m : Memory) : (s.setMem m).pc = s.pc := rfl
@[simp] theorem setMem_res (s : State) (m : Memory) : (s.setMem m).res = s.res := rfl
@[simp] theorem setMem_mem (s : State) (m : Memory) : (s.setMem m).mem = m := rfl
@[simp] theorem setMem_cause (s : State) (m : Memory) : (s.setMem m).cause = s.cause := rfl
@[simp] theorem setMem_boundary (s : State) (m : Memory) : (s.setMem m).boundary = s.boundary := rfl
@[simp] theorem setMem_result (s : State) (m : Memory) : (s.setMem m).result = s.result := rfl
@[simp] theorem setMem_port (s : State) (m : Memory) : (s.setMem m).port = s.port := rfl
@[simp] theorem setMem_host (s : State) (m : Memory) : (s.setMem m).host = s.host := rfl
@[simp] theorem setMem_plat (s : State) (m : Memory) : (s.setMem m).plat = s.plat := rfl

/-! ### `logPort` -/

@[simp] theorem logPort_x (s : State) (r : PortRequest) : (s.logPort r).x = s.x := rfl
@[simp] theorem logPort_pc (s : State) (r : PortRequest) : (s.logPort r).pc = s.pc := rfl
@[simp] theorem logPort_res (s : State) (r : PortRequest) : (s.logPort r).res = s.res := rfl
@[simp] theorem logPort_mem (s : State) (r : PortRequest) : (s.logPort r).mem = s.mem := rfl
@[simp] theorem logPort_cause (s : State) (r : PortRequest) : (s.logPort r).cause = s.cause := rfl
@[simp] theorem logPort_boundary (s : State) (r : PortRequest) : (s.logPort r).boundary = s.boundary := rfl
@[simp] theorem logPort_result (s : State) (r : PortRequest) : (s.logPort r).result = s.result := rfl
@[simp] theorem logPort_port (s : State) (r : PortRequest) : (s.logPort r).port = s.port ++ [r] := rfl
@[simp] theorem logPort_host (s : State) (r : PortRequest) : (s.logPort r).host = s.host := rfl
@[simp] theorem logPort_plat (s : State) (r : PortRequest) : (s.logPort r).plat = s.plat := rfl

/-! ### `setResult` -/

@[simp] theorem setResult_x (s : State) (r : Result) : (s.setResult r).x = s.x := rfl
@[simp] theorem setResult_pc (s : State) (r : Result) : (s.setResult r).pc = s.pc := rfl
@[simp] theorem setResult_res (s : State) (r : Result) : (s.setResult r).res = s.res := rfl
@[simp] theorem setResult_mem (s : State) (r : Result) : (s.setResult r).mem = s.mem := rfl
@[simp] theorem setResult_cause (s : State) (r : Result) : (s.setResult r).cause = s.cause := rfl
@[simp] theorem setResult_boundary (s : State) (r : Result) : (s.setResult r).boundary = s.boundary := rfl
@[simp] theorem setResult_result (s : State) (r : Result) : (s.setResult r).result = some r := rfl
@[simp] theorem setResult_port (s : State) (r : Result) : (s.setResult r).port = s.port := rfl
@[simp] theorem setResult_host (s : State) (r : Result) : (s.setResult r).host = s.host := rfl
@[simp] theorem setResult_plat (s : State) (r : Result) : (s.setResult r).plat = s.plat := rfl

/-! ### `handled` -/

@[simp] theorem handled_x (s : State) : (s.handled).x = s.x := rfl
@[simp] theorem handled_pc (s : State) : (s.handled).pc = s.pc := rfl
@[simp] theorem handled_res (s : State) : (s.handled).res = s.res := rfl
@[simp] theorem handled_mem (s : State) : (s.handled).mem = s.mem := rfl
@[simp] theorem handled_cause (s : State) : (s.handled).cause = s.cause := rfl
@[simp] theorem handled_boundary (s : State) : (s.handled).boundary = s.boundary := rfl
@[simp] theorem handled_result (s : State) : (s.handled).result = some .handled := rfl
@[simp] theorem handled_port (s : State) : (s.handled).port = s.port := rfl
@[simp] theorem handled_host (s : State) : (s.handled).host = s.host := rfl
@[simp] theorem handled_plat (s : State) : (s.handled).plat = s.plat := rfl

/-! ### `enter` -/

@[simp] theorem enter_x (s : State) : (s.enter).x = s.x := rfl
@[simp] theorem enter_pc (s : State) : (s.enter).pc = s.pc := rfl
@[simp] theorem enter_res (s : State) : (s.enter).res = s.res := rfl
@[simp] theorem enter_mem (s : State) : (s.enter).mem = s.mem := rfl
@[simp] theorem enter_cause (s : State) : (s.enter).cause = s.cause := rfl
@[simp] theorem enter_boundary (s : State) : (s.enter).boundary = .dispatch := rfl
@[simp] theorem enter_result (s : State) : (s.enter).result = none := rfl
@[simp] theorem enter_port (s : State) : (s.enter).port = [] := rfl
@[simp] theorem enter_host (s : State) : (s.enter).host = s.host := rfl
@[simp] theorem enter_plat (s : State) : (s.enter).plat = s.plat := rfl

/-! ### `resume` -/

@[simp] theorem resume_x (s : State) : (s.resume).x = s.x := rfl
@[simp] theorem resume_pc (s : State) : (s.resume).pc = s.pc + 4 := rfl
@[simp] theorem resume_res (s : State) : (s.resume).res = s.res := rfl
@[simp] theorem resume_mem (s : State) : (s.resume).mem = s.mem := rfl
@[simp] theorem resume_cause (s : State) : (s.resume).cause = s.cause := rfl
@[simp] theorem resume_boundary (s : State) : (s.resume).boundary = .resume := rfl
@[simp] theorem resume_result (s : State) : (s.resume).result = s.result := rfl
@[simp] theorem resume_port (s : State) : (s.resume).port = s.port := rfl
@[simp] theorem resume_host (s : State) : (s.resume).host = s.host := rfl
@[simp] theorem resume_plat (s : State) : (s.resume).plat = s.plat := rfl

/-! ### `forward` -/

@[simp] theorem forward_x (s : State) (c : Call) : (s.forward c).x = s.x := rfl
@[simp] theorem forward_pc (s : State) (c : Call) : (s.forward c).pc = s.pc := rfl
@[simp] theorem forward_res (s : State) (c : Call) : (s.forward c).res = s.res := rfl
@[simp] theorem forward_mem (s : State) (c : Call) : (s.forward c).mem = s.mem := rfl
@[simp] theorem forward_cause (s : State) (c : Call) : (s.forward c).cause = s.cause := rfl
@[simp] theorem forward_boundary (s : State) (c : Call) : (s.forward c).boundary = .forward c := rfl
@[simp] theorem forward_result (s : State) (c : Call) : (s.forward c).result = s.result := rfl
@[simp] theorem forward_port (s : State) (c : Call) : (s.forward c).port = s.port := rfl
@[simp] theorem forward_host (s : State) (c : Call) : (s.forward c).host = s.host := rfl
@[simp] theorem forward_plat (s : State) (c : Call) : (s.forward c).plat = s.plat := rfl

/-! ### `writeDest` -/

@[simp] theorem writeDest_x (s : State) (rd : RegIdx) (v : Word) : (s.writeDest rd v).x = s.x.set rd.val v rd.isLt := rfl
@[simp] theorem writeDest_pc (s : State) (rd : RegIdx) (v : Word) : (s.writeDest rd v).pc = s.pc := rfl
@[simp] theorem writeDest_res (s : State) (rd : RegIdx) (v : Word) : (s.writeDest rd v).res = s.res := rfl
@[simp] theorem writeDest_mem (s : State) (rd : RegIdx) (v : Word) : (s.writeDest rd v).mem = s.mem := rfl
@[simp] theorem writeDest_cause (s : State) (rd : RegIdx) (v : Word) : (s.writeDest rd v).cause = s.cause := rfl
@[simp] theorem writeDest_boundary (s : State) (rd : RegIdx) (v : Word) : (s.writeDest rd v).boundary = s.boundary := rfl
@[simp] theorem writeDest_result (s : State) (rd : RegIdx) (v : Word) : (s.writeDest rd v).result = s.result := rfl
@[simp] theorem writeDest_port (s : State) (rd : RegIdx) (v : Word) : (s.writeDest rd v).port = s.port := rfl
@[simp] theorem writeDest_host (s : State) (rd : RegIdx) (v : Word) : (s.writeDest rd v).host = s.host := rfl
@[simp] theorem writeDest_plat (s : State) (rd : RegIdx) (v : Word) : (s.writeDest rd v).plat = s.plat := rfl

/-! ### Slots -/

/-- Reading a slot after a write: the value written, or the slot as it was. -/
theorem reg_setReg (s : State) (i j : RegIdx) (v : Word) : (s.setReg i v).reg j = if i = j then v else s.reg j := by
  simp [State.reg, State.setReg, Vector.getElem_set, Fin.ext_iff]

@[simp] theorem reg_setReg_same (s : State) (i : RegIdx) (v : Word) : (s.setReg i v).reg i = v := by
  simp [reg_setReg]

@[simp] theorem reg_setReg_other (s : State) (i j : RegIdx) (v : Word) (h : j ≠ i) : (s.setReg i v).reg j = s.reg j := by
  simp [reg_setReg, Ne.symm h]

@[simp] theorem reg_setRes (s : State) (v : Word) (j : RegIdx) : (s.setRes v).reg j = s.reg j := rfl
@[simp] theorem reg_setPc (s : State) (v : Word) (j : RegIdx) : (s.setPc v).reg j = s.reg j := rfl
@[simp] theorem reg_setMem (s : State) (m : Memory) (j : RegIdx) : (s.setMem m).reg j = s.reg j := rfl
@[simp] theorem reg_logPort (s : State) (r : PortRequest) (j : RegIdx) : (s.logPort r).reg j = s.reg j := rfl
@[simp] theorem reg_setResult (s : State) (r : Result) (j : RegIdx) : (s.setResult r).reg j = s.reg j := rfl
@[simp] theorem reg_handled (s : State) (j : RegIdx) : (s.handled).reg j = s.reg j := rfl
@[simp] theorem reg_enter (s : State) (j : RegIdx) : (s.enter).reg j = s.reg j := rfl
@[simp] theorem reg_resume (s : State) (j : RegIdx) : (s.resume).reg j = s.reg j := rfl
@[simp] theorem reg_forward (s : State) (c : Call) (j : RegIdx) : (s.forward c).reg j = s.reg j := rfl

/-- Two states with the same slots read alike. -/
theorem reg_congr {s t : State} (h : t.x = s.x) (j : RegIdx) : t.reg j = s.reg j := by
  simp [State.reg, h]

@[simp] theorem writeDest_eq (s : State) (rd : RegIdx) (v : Word) : s.writeDest rd v = s.setReg rd v := rfl
@[simp] theorem addrOperand_eq (s : State) (r : RegIdx) : s.addrOperand r = s.reg r := rfl
@[simp] theorem valueOperand_eq (s : State) (r : RegIdx) : s.valueOperand r = s.reg r := rfl

/-! ### Lists of slots -/

/-- Writing a list of slots leaves every field but the slots alone. -/
theorem setRegs_fields (l : List (RegIdx × Word)) (s : State) :
    (s.setRegs l).pc = s.pc ∧ (s.setRegs l).res = s.res ∧ (s.setRegs l).mem = s.mem ∧ (s.setRegs l).result = s.result ∧
      (s.setRegs l).port = s.port ∧ (s.setRegs l).host = s.host ∧ (s.setRegs l).plat = s.plat := by
  induction l generalizing s with
  | nil => simp [State.setRegs]
  | cons p t ih => simpa [State.setRegs] using ih (s.setReg p.1 p.2)

/-- A slot that a list of writes does not name reads as before. -/
theorem reg_setRegs_other (l : List (RegIdx × Word)) (s : State) (r : RegIdx) (h : ∀ p ∈ l, p.1 ≠ r) :
    (s.setRegs l).reg r = s.reg r := by
  induction l generalizing s with
  | nil => rfl
  | cons p t ih =>
    have hp : r ≠ p.1 := (h p (by simp)).symm
    rw [State.setRegs, ih _ (fun q hq => h q (by simp [hq])), reg_setReg_other _ _ _ _ hp]

/-- What the host's trap entry leaves alone. -/
theorem hostTrap_fields (s : State) (t : HostTurn) :
    (s.hostTrap t).res = s.res ∧ (s.hostTrap t).host = s.host ∧ (s.hostTrap t).plat = s.plat ∧
      (s.hostTrap t).mem = s.mem.writeBytes t.stores := by
  simp [State.hostTrap, setRegs_fields]

end Sys2Proof.Machine
end

