-- ==== Sys2Proof/Laws/Ops.lean ====
section
/-! SUPPORT. One lemma per shared operation that says everything it can do. -/

namespace Sys2Proof.Machine

open Sys2Proof

/-! ### The port -/

/-- A data read: the word in memory with the request recorded, or the port's own fault. -/
theorem memRead_cases (s : State) (a : Word) :
    (portRefusal s.plat .read a = none ∧ s.memRead a = .ok (s.wordAt a, s.logPort (.read a))) ∨
      ∃ f, portRefusal s.plat .read a = some f ∧ s.memRead a = .error f := by
  unfold State.memRead
  cases h : portRefusal s.plat .read a <;> simp

/-- A data write: the word stored with the request recorded, or the port's own fault. -/
theorem memWrite_cases (s : State) (a v : Word) :
    (portRefusal s.plat .write a = none ∧
        s.memWrite a v = .ok ((s.setMem (s.mem.storeWord s.plat.endian a v)).logPort (.write a v))) ∨
      ∃ f, portRefusal s.plat .write a = some f ∧ s.memWrite a v = .error f := by
  unfold State.memWrite
  cases h : portRefusal s.plat .write a <;> simp

/-- The fetch: the word in memory at `pc` with the request recorded, or the port's own fault. -/
theorem fetch_cases (s : State) :
    (fetchRefusal s.plat s.pc = none ∧ s.fetch = .ok (s.wordAt s.pc, s.logPort (.read s.pc))) ∨
      ∃ f, fetchRefusal s.plat s.pc = some f ∧ s.fetch = .error f := by
  unfold State.fetch
  cases h : fetchRefusal s.plat s.pc <;> simp

/-! ### The meanings -/

/-- The state an admitted LR leaves. -/
def lrDone (rd rs1 : RegIdx) (s : State) : State :=
  ((((s.setRes (s.reg rs1)).logPort (.read (s.reg rs1))).setReg rd (s.wordAt (s.reg rs1))).handled)

/-- LR completes with `lrDone`, or stops with the port's fault. -/
theorem execLr_cases (rd rs1 : RegIdx) (s : State) :
    (portRefusal s.plat .read (s.reg rs1) = none ∧ execLr rd rs1 s = .next (lrDone rd rs1 s)) ∨
      ∃ f, portRefusal s.plat .read (s.reg rs1) = some f ∧ execLr rd rs1 s = .fault f := by
  obtain ⟨h, e⟩ | ⟨f, h, e⟩ := memRead_cases (s.setRes (s.reg rs1)) (s.reg rs1)
  · exact .inl ⟨h, by simp only [execLr, addrOperand_eq, e]; rfl⟩
  · exact .inr ⟨f, h, by simp only [execLr, addrOperand_eq, e]⟩

/-- The state a successful SC leaves. -/
def scDone (rd rs2 : RegIdx) (s : State) : State :=
  ((((s.setMem (s.mem.storeWord s.plat.endian s.res (s.reg rs2))).logPort (.write s.res (s.reg rs2))).setReg rd
    0#32).setRes 0#32).handled

/-- SC fails on a mismatch, completes with `scDone` on a match, or stops there with the port's fault. -/
theorem execSc_cases (rd rs1 rs2 : RegIdx) (s : State) :
    (s.reg rs1 ≠ s.res ∧ execSc rd rs1 rs2 s = .next (s.setReg rd 1#32).handled) ∨
      (s.reg rs1 = s.res ∧ portRefusal s.plat .write s.res = none ∧ execSc rd rs1 rs2 s = .next (scDone rd rs2 s)) ∨
      ∃ f, s.reg rs1 = s.res ∧ portRefusal s.plat .write s.res = some f ∧ execSc rd rs1 rs2 s = .fault f := by
  by_cases hm : s.reg rs1 = s.res
  · obtain ⟨h, e⟩ | ⟨f, h, e⟩ := memWrite_cases s s.res (s.reg rs2)
    · exact .inr (.inl ⟨hm, h, by
        simp only [execSc, State.reserved, addrOperand_eq, valueOperand_eq, hm, e, beq_self_eq_true, if_true]; rfl⟩)
    · exact .inr (.inr ⟨f, hm, h, by
        simp only [execSc, State.reserved, addrOperand_eq, valueOperand_eq, hm, e, beq_self_eq_true, if_true]⟩)
  · exact .inl ⟨hm, by simp [execSc, State.reserved, hm, scFailure]⟩

/-- The state an admitted AMO with combining function `f` leaves. -/
def amoDone (f : Word → Word → Word) (rd rs1 rs2 : RegIdx) (s : State) : State :=
  ((((s.logPort (.read (s.reg rs1))).setReg rd (s.wordAt (s.reg rs1))).setMem
    (s.mem.storeWord s.plat.endian (s.reg rs1) (f (s.wordAt (s.reg rs1)) (s.reg rs2)))).logPort
    (.write (s.reg rs1) (f (s.wordAt (s.reg rs1)) (s.reg rs2)))).handled

/-- An AMO completes with `amoDone`, or stops with the port's fault of its read, or of its write. -/
theorem amo_cases (f : Word → Word → Word) (rd rs1 rs2 : RegIdx) (s : State) :
    (portRefusal s.plat .read (s.reg rs1) = none ∧ portRefusal s.plat .write (s.reg rs1) = none ∧
        amo f rd rs1 rs2 s = .next (amoDone f rd rs1 rs2 s)) ∨
      (∃ e, portRefusal s.plat .read (s.reg rs1) = some e ∧ amo f rd rs1 rs2 s = .fault e) ∨
      ∃ e, portRefusal s.plat .read (s.reg rs1) = none ∧ portRefusal s.plat .write (s.reg rs1) = some e ∧
        amo f rd rs1 rs2 s = .fault e := by
  obtain ⟨h, e⟩ | ⟨x, h, e⟩ := memRead_cases s (s.reg rs1)
  · obtain ⟨h', e'⟩ | ⟨x, h', e'⟩ := memWrite_cases ((s.logPort (.read (s.reg rs1))).setReg rd (s.wordAt (s.reg rs1)))
      (s.reg rs1) (f (s.wordAt (s.reg rs1)) (s.reg rs2))
    · exact .inl ⟨h, h', by simp only [amo, addrOperand_eq, valueOperand_eq, writeDest_eq, e, e']; rfl⟩
    · exact .inr (.inr ⟨x, h, h', by simp only [amo, addrOperand_eq, valueOperand_eq, writeDest_eq, e, e']⟩)
  · exact .inr (.inl ⟨x, h, by simp only [amo, addrOperand_eq, e]⟩)

/-- The combining function of an AMO, `none` for LR and SC. -/
def amoFnOf : Instr → Option (Word → Word → Word)
  | .lr _ _ => none
  | .sc _ _ _ => none
  | .amoadd _ _ _ => some amoAddFn
  | .amoswap _ _ _ => some amoSwapFn
  | .amoxor _ _ _ => some amoXorFn
  | .amoor _ _ _ => some amoOrFn
  | .amoand _ _ _ => some amoAndFn
  | .amomin _ _ _ => some amoMinFn
  | .amomax _ _ _ => some amoMaxFn
  | .amominu _ _ _ => some amoMinuFn
  | .amomaxu _ _ _ => some amoMaxuFn

/-- Every instruction is LR, SC, or the common AMO template with its combining function. -/
theorem exec_shapes (i : Instr) :
    (∃ rd rs1, i = .lr rd rs1) ∨ (∃ rd rs1 rs2, i = .sc rd rs1 rs2) ∨
      ∃ f rs2, amoFnOf i = some f ∧ i.rs2? = some rs2 ∧ ∀ s, exec i s = amo f i.rd i.rs1 rs2 s := by
  cases i
  case lr => exact .inl ⟨_, _, rfl⟩
  case sc => exact .inr (.inl ⟨_, _, _, rfl⟩)
  all_goals exact .inr (.inr ⟨_, _, rfl, rfl, fun _ => rfl⟩)

/-! ### The boundary -/

/-- The boundary after a handled word. -/
theorem afterUnit_handled {s : State} (h : s.result = some .handled) : s.afterUnit = s.resume := by
  simp [State.afterUnit, h]

/-- The boundary after an unhandled word. -/
theorem afterUnit_unhandled {s : State} {r : UnhandledReason} (h : s.result = some (.unhandled r)) :
    s.afterUnit = s.forwardException := by
  simp [State.afterUnit, h]

/-- The three ways a cause classifies. -/
theorem classify_cases (s : State) :
    (s.cause.isInterrupt = true ∧ s.classify = .forwardInterrupt) ∨
      (s.cause = illegalCause s.plat ∧ s.classify = .emulateAttempt) ∨
      (s.cause.isInterrupt = false ∧ s.cause.code ≠ s.plat.excIllegal ∧ s.classify = .forwardException) := by
  unfold State.classify illegalCause
  rcases s.cause with ⟨b, c⟩
  cases b
  · by_cases h : c = s.plat.excIllegal <;> simp [h]
  · simp

/-- What a next trap can be. -/
theorem nextTrap_cases {s u : State} (h : s.nextTrap = some u) :
    (s.boundary = .dispatch ∧ u = s) ∨
      (∃ t rest, s.boundary ≠ .dispatch ∧ s.host = t :: rest ∧ u = ({ s with host := rest } : State).hostTrap t) ∨
      (s.boundary = .resume ∧ s.host = [] ∧ s.atomicAtPc = true ∧
        u = { s with cause := illegalCause s.plat, boundary := .dispatch }) := by
  unfold State.nextTrap at h
  cases hb : s.boundary <;> cases hh : s.host <;> rw [hb, hh] at h <;> simp at h
  all_goals first
    | exact .inl ⟨rfl, h.symm⟩
    | exact .inr (.inl ⟨_, _, by simp, rfl, h.symm⟩)
    | exact .inr (.inr ⟨rfl, rfl, h.1, h.2.symm⟩)

end Sys2Proof.Machine
end

