-- ==== Sys2Proof/Laws/PerInstr.lean ====
section
/-! SUPPORT. What the decoder's field extraction reads from an encoded instruction, one lemma per constructor. -/

namespace Sys2Proof.Laws

open Sys2Proof Sys2Proof.Machine

/-- The fields of a word in the one format (R50, R51 of spec/30_encoding.md). -/
theorem layout_fields (f5 : BitVec 5) (b26 : BitVec 2) (f2 f1 : BitVec 5) (b14 : BitVec 3) (fd : BitVec 5) :
    opcodeOf (layout f5 b26 f2 f1 b14 fd) = opcAmo ∧
      decodeFields (layout f5 b26 f2 f1 b14 fd) = ⟨fd.toFin, f1.toFin, f2.toFin, f5⟩ := by
  have h5 := f5.isLt
  have hb := b26.isLt
  have h2 := f2.isLt
  have h1 := f1.isLt
  have h14 := b14.isLt
  have hd := fd.isLt
  have hw : (layout f5 b26 f2 f1 b14 fd).toNat =
      f5.toNat * 2 ^ 27 + b26.toNat * 2 ^ 25 + f2.toNat * 2 ^ 20 + f1.toNat * 2 ^ 15 + b14.toNat * 2 ^ 12 +
        fd.toNat * 2 ^ 7 + 47 := by
    have ho : opcAmo.toNat = 47 := rfl
    simp only [layout, toNat_append_add, ho]
    omega
  refine ⟨BitVec.eq_of_toNat_eq ?_, ?_⟩
  · simp only [opcodeOf, BitVec.extractLsb'_toNat, hw, Nat.shiftRight_eq_div_pow]
    have ho : opcAmo.toNat = 47 := rfl
    omega
  · simp only [decodeFields, regField, Fields.mk.injEq, Fin.ext_iff, BitVec.val_toFin]
    refine ⟨?_, ?_, ?_, BitVec.eq_of_toNat_eq ?_⟩ <;>
      (simp only [BitVec.extractLsb'_toNat, hw, Nat.shiftRight_eq_div_pow]; omega)

end Sys2Proof.Laws

namespace Sys2Proof.Laws.EncodedFields

open Sys2Proof

/-- Whatever the ignored bits, the word of an instruction has the atomic opcode, the subcode of its operation and its own
register numbers in their fields. -/
def Statement (i : Instr) : Prop :=
  ∀ g : Ignored, isAtomic (encodeWith g i) = true ∧ (decodeFields (encodeWith g i)).subcode = funct5 i.op ∧
    (decodeFields (encodeWith g i)).rd = i.rd ∧ (decodeFields (encodeWith g i)).rs1 = i.rs1 ∧
    ∀ r, i.rs2? = some r → (decodeFields (encodeWith g i)).rs2 = r

/-- The statement holds of every instruction, by the format's own fields. -/
theorem all (i : Instr) : Statement i := by
  intro g
  obtain ⟨ho, hf⟩ :=
    layout_fields (funct5 i.op) g.bits26_25 (rs2Bits g i) (regBits i.rs1) g.bits14_12 (regBits i.rd)
  have hf' : decodeFields (encodeWith g i) = ⟨i.rd, i.rs1, (rs2Bits g i).toFin, funct5 i.op⟩ := hf
  refine ⟨beq_iff_eq.mpr ho, by rw [hf'], by rw [hf'], by rw [hf'], fun r hr => ?_⟩
  rw [hf', rs2Bits, hr]
  rfl

theorem amoadd (rd rs1 rs2 : RegIdx) : Statement (.amoadd rd rs1 rs2) := all _
theorem amoswap (rd rs1 rs2 : RegIdx) : Statement (.amoswap rd rs1 rs2) := all _
theorem lr (rd rs1 : RegIdx) : Statement (.lr rd rs1) := all _
theorem sc (rd rs1 rs2 : RegIdx) : Statement (.sc rd rs1 rs2) := all _
theorem amoxor (rd rs1 rs2 : RegIdx) : Statement (.amoxor rd rs1 rs2) := all _
theorem amoor (rd rs1 rs2 : RegIdx) : Statement (.amoor rd rs1 rs2) := all _
theorem amoand (rd rs1 rs2 : RegIdx) : Statement (.amoand rd rs1 rs2) := all _
theorem amomin (rd rs1 rs2 : RegIdx) : Statement (.amomin rd rs1 rs2) := all _
theorem amomax (rd rs1 rs2 : RegIdx) : Statement (.amomax rd rs1 rs2) := all _
theorem amominu (rd rs1 rs2 : RegIdx) : Statement (.amominu rd rs1 rs2) := all _
theorem amomaxu (rd rs1 rs2 : RegIdx) : Statement (.amomaxu rd rs1 rs2) := all _

end Sys2Proof.Laws.EncodedFields
end

