-- ==== Sys2Proof/Laws/Step.lean ====
section
/-! SUPPORT. What a trap entry and a step can do, one equation per path of the boundary. -/

namespace Sys2Proof.Machine

open Sys2Proof

/-! ### Forwarding -/

@[simp] theorem forwardException_fields (s : State) :
    s.forwardException.x = s.x ∧ s.forwardException.pc = s.pc ∧ s.forwardException.res = s.res ∧
      s.forwardException.mem = s.mem ∧ s.forwardException.cause = s.cause ∧ s.forwardException.result = s.result ∧
      s.forwardException.port = s.port ∧ s.forwardException.host = s.host ∧ s.forwardException.plat = s.plat ∧
      s.forwardException.boundary = .forward (.exceptionHandler s.ctxView) :=
  ⟨rfl, rfl, rfl, rfl, rfl, rfl, rfl, rfl, rfl, rfl⟩

@[simp] theorem forwardInterrupt_fields (s : State) :
    s.forwardInterrupt.x = s.x ∧ s.forwardInterrupt.pc = s.pc ∧ s.forwardInterrupt.res = s.res ∧
      s.forwardInterrupt.mem = s.mem ∧ s.forwardInterrupt.cause = s.cause ∧ s.forwardInterrupt.result = s.result ∧
      s.forwardInterrupt.port = s.port ∧ s.forwardInterrupt.host = s.host ∧ s.forwardInterrupt.plat = s.plat ∧
      s.forwardInterrupt.boundary = .forward (interruptCall s.plat s.cause.code) :=
  ⟨rfl, rfl, rfl, rfl, rfl, rfl, rfl, rfl, rfl, rfl⟩

/-! ### Trap entry -/

/-- The state in which the unit is presented with the word at `pc`. -/
def presented (u : State) : State := u.enter.logPort (.read u.pc)

@[simp] theorem presented_fields (u : State) :
    (presented u).x = u.x ∧ (presented u).pc = u.pc ∧ (presented u).res = u.res ∧ (presented u).mem = u.mem ∧
      (presented u).cause = u.cause ∧ (presented u).boundary = .dispatch ∧ (presented u).result = none ∧
      (presented u).port = [.read u.pc] ∧ (presented u).host = u.host ∧ (presented u).plat = u.plat :=
  ⟨rfl, rfl, rfl, rfl, rfl, rfl, rfl, rfl, rfl, rfl⟩

/-- The interrupt path. -/
theorem trapEntry_interrupt {u : State} (h : u.cause.isInterrupt = true) :
    trapEntry u = .next u.enter.forwardInterrupt := by
  simp [trapEntry, State.classify, h]

/-- The path of any other exception. -/
theorem trapEntry_exception {u : State} (h : u.cause.isInterrupt = false) (hc : u.cause.code ≠ u.plat.excIllegal) :
    trapEntry u = .next u.enter.forwardException := by
  simp [trapEntry, State.classify, h, hc]

/-- The illegal-instruction path where the port refuses the fetch. -/
theorem trapEntry_fetchFault {u : State} {f : Fault} (h : u.cause = illegalCause u.plat)
    (hf : fetchRefusal u.plat u.pc = some f) : trapEntry u = .fault f := by
  simp [trapEntry, State.classify, State.fetch, h, illegalCause, hf]

/-- The illegal-instruction path where the fetch is admitted: one invocation of the unit, then the boundary's part. -/
theorem trapEntry_emulate {u : State} (h : u.cause = illegalCause u.plat) (hf : fetchRefusal u.plat u.pc = none) :
    (∀ t, unitStep (u.wordAt u.pc) (presented u) = .next t → trapEntry u = .next t.afterUnit) ∧
      (∀ f, unitStep (u.wordAt u.pc) (presented u) = .fault f → trapEntry u = .fault f) ∧
      ∀ r, unitStep (u.wordAt u.pc) (presented u) = .refused r → trapEntry u = .refused r := by
  have hc : u.enter.classify = .emulateAttempt := by simp [State.classify, h, illegalCause]
  have hx : u.enter.fetch = .ok (u.wordAt u.pc, presented u) := by simp [State.fetch, hf, State.wordAt, presented]
  refine ⟨fun t ht => ?_, fun f ht => ?_, fun r ht => ?_⟩ <;> simp only [trapEntry, hc, hx, ht]

/-- The four ways a trap entry can go. -/
theorem trapEntry_paths (u : State) :
    (u.cause.isInterrupt = true ∧ trapEntry u = .next u.enter.forwardInterrupt) ∨
      (u.cause.isInterrupt = false ∧ u.cause.code ≠ u.plat.excIllegal ∧ trapEntry u = .next u.enter.forwardException) ∨
      (u.cause = illegalCause u.plat ∧ ∃ f, fetchRefusal u.plat u.pc = some f ∧ trapEntry u = .fault f) ∨
      (u.cause = illegalCause u.plat ∧ fetchRefusal u.plat u.pc = none) := by
  obtain ⟨h, -⟩ | ⟨h, -⟩ | ⟨h, hc, -⟩ := classify_cases u
  · exact .inl ⟨h, trapEntry_interrupt h⟩
  · cases hf : fetchRefusal u.plat u.pc with
    | none => exact .inr (.inr (.inr ⟨h, rfl⟩))
    | some f => exact .inr (.inr (.inl ⟨h, f, rfl, trapEntry_fetchFault h hf⟩))
  · exact .inr (.inl ⟨h, hc, trapEntry_exception h hc⟩)

/-! ### Steps -/

/-- A step in `Dispatch` is the trap entry of the state itself. -/
theorem step_dispatch {s : State} (h : s.boundary = .dispatch) : step s = trapEntry s := by
  simp [step, State.nextTrap, h]

/-- A step is the trap entry of the next trap, or nothing. -/
theorem step_cases (s : State) :
    (s.nextTrap = none ∧ step s = .next s) ∨ ∃ u, s.nextTrap = some u ∧ step s = trapEntry u := by
  cases h : s.nextTrap with
  | none => exact .inl ⟨rfl, by simp [step, h]⟩
  | some u => exact .inr ⟨u, rfl, by simp [step, h]⟩

/-- What every way of reaching the next trap keeps: `RES`, the platform, the canonical form of memory. -/
theorem nextTrap_keeps {s u : State} (h : s.nextTrap = some u) :
    u.res = s.res ∧ u.plat = s.plat ∧ (s.mem.wf = true → u.mem.wf = true) := by
  obtain ⟨-, rfl⟩ | ⟨t, rest, -, -, rfl⟩ | ⟨-, -, -, rfl⟩ := nextTrap_cases h
  · exact ⟨rfl, rfl, id⟩
  · obtain ⟨hr, -, hp, hm⟩ := hostTrap_fields ({ s with host := rest } : State) t
    exact ⟨hr, hp, fun hw => hm ▸ wf_writeBytes _ hw⟩
  · exact ⟨rfl, rfl, id⟩

end Sys2Proof.Machine
end

