-- ==== Sys2Proof/Laws/Requests.lean ====
section
/-! SUPPORT. What an instruction does on the port, for all eleven at once: the tables of Safety.lean (`dataRequests`,
`valueWritten`) against `exec`, and the model's admission test against `InRegions`. -/

namespace Sys2Proof.Machine

open Sys2Proof

/-- An AMO completes, having made both requests and written the old word, or stops at the first request refused. -/
theorem amo_outcome (f : Word → Word → Word) (rd rs1 rs2 : RegIdx) (s : State) :
    (∃ t, amo f rd rs1 rs2 s = .next t ∧ firstRefusal s.plat (amoRequests f rs1 rs2 s) = none ∧
        t.reg rd = s.wordAt (s.reg rs1) ∧ t.port = s.port ++ amoRequests f rs1 rs2 s ∧ t.result = some .handled) ∨
      ∃ e, amo f rd rs1 rs2 s = .fault e ∧ firstRefusal s.plat (amoRequests f rs1 rs2 s) = some e := by
  obtain ⟨a, b, c⟩ | ⟨e, a, c⟩ | ⟨e, a, b, c⟩ := amo_cases f rd rs1 rs2 s
  · exact .inl ⟨_, c, by simp [firstRefusal, amoRequests, PortRequest.refusal, a, b], by simp [amoDone],
      by simp [amoDone, amoRequests], rfl⟩
  · exact .inr ⟨e, c, by simp [firstRefusal, amoRequests, PortRequest.refusal, a]⟩
  · exact .inr ⟨e, c, by simp [firstRefusal, amoRequests, PortRequest.refusal, a, b]⟩

/-- An instruction completes, having made the requests of its table and written the value of its table, or stops with the
fault of the first of those requests that the port refuses; it never refuses by name. -/
theorem exec_outcome (i : Instr) (s : State) :
    (∃ t, exec i s = .next t ∧ firstRefusal s.plat (dataRequests i s) = none ∧ t.reg i.rd = valueWritten i s ∧
        t.port = s.port ++ dataRequests i s ∧ t.result = some .handled) ∨
      ∃ f, exec i s = .fault f ∧ firstRefusal s.plat (dataRequests i s) = some f := by
  cases i
  case lr rd rs1 =>
    obtain ⟨a, c⟩ | ⟨e, a, c⟩ := execLr_cases rd rs1 s
    · exact .inl ⟨_, c, by simp [firstRefusal, dataRequests, PortRequest.refusal, a],
        by simp [lrDone, Instr.rd, valueWritten], by simp [lrDone, dataRequests], rfl⟩
    · exact .inr ⟨e, c, by simp [firstRefusal, dataRequests, PortRequest.refusal, a]⟩
  case sc rd rs1 rs2 =>
    obtain ⟨a, c⟩ | ⟨a, b, c⟩ | ⟨e, a, b, c⟩ := execSc_cases rd rs1 rs2 s
    · exact .inl ⟨_, c, by simp [firstRefusal, dataRequests, a], by simp [Instr.rd, valueWritten, a],
        by simp [dataRequests, a], rfl⟩
    · exact .inl ⟨_, c, by simp [firstRefusal, dataRequests, PortRequest.refusal, a, b],
        by simp [scDone, Instr.rd, valueWritten, a], by simp [scDone, dataRequests, a], rfl⟩
    · exact .inr ⟨e, c, by simp [firstRefusal, dataRequests, PortRequest.refusal, a, b]⟩
  all_goals exact amo_outcome _ _ _ _ s

/-- The boundary's part before the unit changes no request of the instruction. -/
@[simp] theorem dataRequests_presented (i : Instr) (u : State) : dataRequests i (presented u) = dataRequests i u := by
  cases i <;> rfl

/-- One byte is admitted when some region that holds it permits the kind of request. -/
theorem admitsByte_iff (p : Platform) (k : AccessKind) (b : Word) :
    admitsByte p k b = true ↔ ∃ r ∈ p.regions, r.base ≤ b.toNat ∧ b.toNat < r.base + r.size ∧
      (k = .read → r.canRead = true) ∧ (k = .write → r.canWrite = true) := by
  cases k <;> simp [admitsByte, and_assoc]

/-- A word request is admitted when each of its four bytes is in a region that permits its kind. -/
theorem admitsWord_iff_inRegions (p : Platform) (k : AccessKind) (a : Word) :
    admitsWord p k a = true ↔ InRegions p k a := by
  have e : ∀ j : Nat, j < 4 → (a + BitVec.ofNat 32 j).toNat = (a.toNat + j) % 2 ^ 32 := by
    intro j _; simp [BitVec.toNat_add]
  simp only [admitsWord, wordAddrs, List.all_cons, List.all_nil, Bool.and_true, Bool.and_eq_true, admitsByte_iff, InRegions]
  constructor
  · rintro ⟨h0, h1, h2, h3⟩ j hj
    rw [← e j hj]
    have : j = 0 ∨ j = 1 ∨ j = 2 ∨ j = 3 := by omega
    rcases this with rfl | rfl | rfl | rfl <;> simpa
  · intro h
    have h0 := h 0 (by omega); have h1 := h 1 (by omega); have h2 := h 2 (by omega); have h3 := h 3 (by omega)
    rw [← e _ (by omega)] at h0 h1 h2 h3
    exact ⟨by simpa using h0, by simpa using h1, by simpa using h2, by simpa using h3⟩

end Sys2Proof.Machine
end

