-- ==== Sys2Proof/Laws/SlotZero.lean ====
section
/-! SUPPORT. The exchange of slot 0 with another slot: what it does to each field, and to reading and writing a slot. -/

namespace Sys2Proof.Machine

open Sys2Proof

@[simp] theorem swapZero_pc (k : RegIdx) (s : State) : (s.swapZero k).pc = s.pc := rfl
@[simp] theorem swapZero_res (k : RegIdx) (s : State) : (s.swapZero k).res = s.res := rfl
@[simp] theorem swapZero_mem (k : RegIdx) (s : State) : (s.swapZero k).mem = s.mem := rfl
@[simp] theorem swapZero_cause (k : RegIdx) (s : State) : (s.swapZero k).cause = s.cause := rfl
@[simp] theorem swapZero_boundary (k : RegIdx) (s : State) : (s.swapZero k).boundary = s.boundary := rfl
@[simp] theorem swapZero_result (k : RegIdx) (s : State) : (s.swapZero k).result = s.result := rfl
@[simp] theorem swapZero_port (k : RegIdx) (s : State) : (s.swapZero k).port = s.port := rfl
@[simp] theorem swapZero_host (k : RegIdx) (s : State) : (s.swapZero k).host = s.host := rfl
@[simp] theorem swapZero_plat (k : RegIdx) (s : State) : (s.swapZero k).plat = s.plat := rfl
@[simp] theorem swapZero_wordAt (k : RegIdx) (s : State) (a : Word) : (s.swapZero k).wordAt a = s.wordAt a := rfl

/-- Exchanging twice gives the slot number back. -/
@[simp] theorem swapZero_swapZero (k r : RegIdx) : swapZero k (swapZero k r) = r := by
  unfold swapZero
  by_cases h0 : r = 0
  · subst h0; by_cases hk : k = 0 <;> simp [hk]
  · by_cases hk : r = k
    · subst hk; simp [h0]
    · simp [h0, hk]

/-- The exchanged slot of the exchanged state holds what the slot held. -/
@[simp] theorem reg_swapZero (k r : RegIdx) (s : State) : (s.swapZero k).reg (swapZero k r) = s.reg r := by
  unfold State.swapZero swapZero
  simp only [reg_setReg]
  by_cases h0 : r = 0
  · subst h0; simp
  · by_cases hk : r = k
    · subst hk; simp [h0]
    · simp [h0, hk, Ne.symm hk, Ne.symm h0]

/-- Writing the exchanged slot of the exchanged state is exchanging after the write. -/
theorem setReg_swapZero (k rd : RegIdx) (v : Word) (s : State) :
    (s.swapZero k).setReg (swapZero k rd) v = (s.setReg rd v).swapZero k := by
  have reg' : ∀ (u : State) (r : RegIdx), (u.swapZero k).reg r = u.reg (swapZero k r) := fun u r => by
    simpa using reg_swapZero k (swapZero k r) u
  have hx : ((s.swapZero k).setReg (swapZero k rd) v).x = ((s.setReg rd v).swapZero k).x := by
    refine Vector.ext fun n hn => ?_
    have : ((s.swapZero k).setReg (swapZero k rd) v).reg ⟨n, hn⟩ = ((s.setReg rd v).swapZero k).reg ⟨n, hn⟩ := by
      have hi : swapZero k rd = ⟨n, hn⟩ ↔ rd = swapZero k ⟨n, hn⟩ :=
        ⟨fun h => by rw [← h, swapZero_swapZero], fun h => by rw [h, swapZero_swapZero]⟩
      rw [reg', reg_setReg, reg_setReg, reg']
      simp only [hi]
    exact this
  cases s
  simp_all [State.swapZero, State.setReg, State.reg]

end Sys2Proof.Machine
end

