-- ==== Sys2Proof/Tests/Slice0.lean ====
section
/-! SUPPORT. Tests on the spec's own words and vectors (spec/30_encoding.md R55, spec/95_test_vectors.md), and for every
statement with hypotheses a concrete state that meets them. -/

namespace Sys2Proof.Tests

open Sys2Proof Sys2Proof.Machine

/-! ### Well-formedness -/

theorem test_wf_default_platform : Platform.default.wf = true := by decide
theorem test_wf_refuses_empty_region : Region.wf ⟨0x1000, 0, true, true⟩ = false := by decide
theorem test_wf_refuses_region_past_the_end : Region.wf ⟨2 ^ 32 - 4, 8, true, true⟩ = false := by decide
theorem test_wf_refuses_view_with_a_repeat : ({ Platform.default with ctxView := [.pc, .x 1, .pc] } : Platform).wf = false := by
  decide
theorem test_wf_refuses_platform_with_a_bad_region :
    ({ Platform.default with regions := [⟨2 ^ 32, 1, true, true⟩] } : Platform).wf = false := by decide

/-! ### Decoding: the patterns of R55 with `rd = 5`, `rs1 = 10`, `rs2 = 11` written out, and the source's word (S2) -/

theorem test_decode_lr_source_word : decodeWord 0b00010_00_00000_00001_010_00010_0101111#32 = .ok (.lr 2 1) := by decide
theorem test_decode_sc : decodeWord 0b00011_00_01011_01010_010_00101_0101111#32 = .ok (.sc 5 10 11) := by decide
theorem test_decode_amoadd : decodeWord 0b00000_00_01011_01010_010_00101_0101111#32 = .ok (.amoadd 5 10 11) := by decide
theorem test_decode_amoswap : decodeWord 0b00001_00_01011_01010_010_00101_0101111#32 = .ok (.amoswap 5 10 11) := by decide
theorem test_decode_amoxor : decodeWord 0b00100_00_01011_01010_010_00101_0101111#32 = .ok (.amoxor 5 10 11) := by decide
theorem test_decode_amoor : decodeWord 0b01000_00_01011_01010_010_00101_0101111#32 = .ok (.amoor 5 10 11) := by decide
theorem test_decode_amoand : decodeWord 0b01100_00_01011_01010_010_00101_0101111#32 = .ok (.amoand 5 10 11) := by decide
theorem test_decode_amomin : decodeWord 0b10000_00_01011_01010_010_00101_0101111#32 = .ok (.amomin 5 10 11) := by decide
theorem test_decode_amomax : decodeWord 0b10100_00_01011_01010_010_00101_0101111#32 = .ok (.amomax 5 10 11) := by decide
theorem test_decode_amominu : decodeWord 0b11000_00_01011_01010_010_00101_0101111#32 = .ok (.amominu 5 10 11) := by decide
theorem test_decode_amomaxu : decodeWord 0b11100_00_01011_01010_010_00101_0101111#32 = .ok (.amomaxu 5 10 11) := by decide
/-- V-DEC-6. -/
theorem test_decode_unknown_subcode : decodeWord 0x3000202F#32 = .error .unknownSubcode := by decide
/-- V-DEC-8: the opcode `0x2E`. -/
theorem test_decode_not_atomic : decodeWord 0x00B522AE#32 = .error .notAtomic := by decide
/-- V-IGN-4: bits 14:12 and 26:25 all ones. -/
theorem test_decode_ignored_bits : decodeWord 0x06B572AF#32 = .ok (.amoadd 5 10 11) := by decide
/-- V-IGN-9: LR with `rs2 = 31`. -/
theorem test_decode_lr_ignores_rs2 : decodeWord 0x11F522AF#32 = .ok (.lr 5 10) := by decide
/-- The all-ones operands, through the table's numbering. -/
theorem test_decode_table_word : decodeTableWord 32 0xE1FFAFAF = some (.amomaxu 31 31 31) := by decide
theorem test_decode_table_word_refused : decodeTableWord 32 0x00000013 = none := by decide
theorem test_decode_bytes : decodeBytes .little [0x2F, 0xA1, 0x00, 0x10, 0x77] = .ok (.lr 2 1, [0x77]) := by decide
theorem test_decode_bytes_truncated : decodeBytes .little [0x2F, 0xA1, 0x00] = .error .truncated := by decide
/-- V-SC-7's word, `sc.w x11, x11, (x10)`. -/
theorem test_encode_sc : encode (.sc 11 10 11) = 0x18B525AF#32 := by decide
theorem test_encode_lr : encode (.lr 5 10) = 0x100522AF#32 := by decide

/-! ### Small states -/

/-- `x10`, `x11`, the word at `0x1000` and `RES` as given, the rest as at reset. -/
def st (a v m r : Word) : State :=
  (((State.reset.setReg 10 a).setReg 11 v).setRes r).setMem (State.reset.mem.storeWord .little 0x1000 m)

/-- The same with a word presented at `pc = 0x8000` by an illegal-instruction trap. -/
def presentedAt (w : Nat) (s : State) : State := (s.setPc 0x8000).withFetchWord 32 w

/-- What a test looks at in a next state. -/
def look {α : Type} (f : State → α) : Host.Outcome State Fault Refusal → Option α
  | .next t => some (f t)
  | .fault _ => none
  | .refused _ => none

/-- A slot, the word at `0x1000`, `RES`. -/
def view (i : RegIdx) (t : State) : Word × Word × Word := (t.reg i, t.wordAt 0x1000, t.res)

/-! ### LR and SC (V-LR, V-SC) -/

/-- V-LR-2. -/
theorem test_lr_replaces : look (view 5) (exec (.lr 5 10) (st 0x1000 0 0x2A 0x2000)) = some (0x2A, 0x2A, 0x1000) := by decide
/-- V-LR-3: `rd = rs1`. -/
theorem test_lr_rd_rs1 : look (view 10) (exec (.lr 10 10) (st 0x1000 0 0x2A 0)) = some (0x2A, 0x2A, 0x1000) := by decide
/-- V-SC-7: `rd = rs2`. -/
theorem test_sc_success : look (view 11) (exec (.sc 11 10 11) (st 0x1000 0x2B 0x2A 0x1000)) = some (0, 0x2B, 0) := by decide
/-- V-SC-3. -/
theorem test_sc_mismatch : look (view 6) (exec (.sc 6 10 11) (st 0x1000 0x2B 0x2A 0x2000)) = some (1, 0x2A, 0x2000) := by
  decide

/-! ### AMOs -/

/-- V-SWAP-2. -/
theorem test_amoswap : look (view 5) (exec (.amoswap 5 10 11) (st 0x1000 0x12345678 0xDEADBEEF 0x2000)) =
    some (0xDEADBEEF, 0x12345678, 0x2000) := by decide
/-- V-AL-2: `rd = rs2`. -/
theorem test_amoswap_rd_rs2 : look (view 11) (exec (.amoswap 11 10 11) (st 0x1000 3 5 0)) = some (5, 3, 0) := by decide
/-- V-ADD-2. -/
theorem test_amoadd_wraps : look (view 5) (exec (.amoadd 5 10 11) (st 0x1000 1 0xFFFFFFFF 0x2000)) =
    some (0xFFFFFFFF, 0, 0x2000) := by decide
/-- V-AL-7: `rd = rs1 = rs2`. -/
theorem test_amoadd_all_alias : look (view 10) (exec (.amoadd 10 10 10) (st 0x1000 3 5 0)) = some (5, 0x1005, 0) := by decide
/-- V-XOR-1. -/
theorem test_amoxor : look (view 5) (exec (.amoxor 5 10 11) (st 0x1000 0x0000FFFF 0x00FF00FF 0x2000)) =
    some (0x00FF00FF, 0x00FFFF00, 0x2000) := by decide
/-- V-AND-1. -/
theorem test_amoand : look (view 5) (exec (.amoand 5 10 11) (st 0x1000 0x0000FFFF 0x00FF00FF 0x2000)) =
    some (0x00FF00FF, 0x000000FF, 0x2000) := by decide
/-- V-OR-1. -/
theorem test_amoor : look (view 5) (exec (.amoor 5 10 11) (st 0x1000 0x0000FFFF 0x00FF00FF 0x2000)) =
    some (0x00FF00FF, 0x00FFFFFF, 0x2000) := by decide
/-- V-MIN-2. -/
theorem test_amomin : look (view 5) (exec (.amomin 5 10 11) (st 0x1000 0xFFFFFFFF 1 0x2000)) =
    some (1, 0xFFFFFFFF, 0x2000) := by decide
/-- V-MIN-3. -/
theorem test_amomin_extremes : look (view 5) (exec (.amomin 5 10 11) (st 0x1000 0x7FFFFFFF 0x80000000 0x2000)) =
    some (0x80000000, 0x80000000, 0x2000) := by decide
/-- V-MAX-1. -/
theorem test_amomax : look (view 5) (exec (.amomax 5 10 11) (st 0x1000 1 0xFFFFFFFF 0x2000)) =
    some (0xFFFFFFFF, 1, 0x2000) := by decide
/-- V-MINU-1. -/
theorem test_amominu : look (view 5) (exec (.amominu 5 10 11) (st 0x1000 1 0xFFFFFFFF 0x2000)) =
    some (0xFFFFFFFF, 1, 0x2000) := by decide
/-- V-MAXU-3. -/
theorem test_amomaxu : look (view 5) (exec (.amomaxu 5 10 11) (st 0x1000 0x7FFFFFFF 0x80000000 0x2000)) =
    some (0x80000000, 0x80000000, 0x2000) := by decide

/-! ### The boundary (V-TRAP, V-INT) -/

/-- V-TRAP-1: the program counter, the boundary, the requests. -/
theorem test_trap_handled :
    look (fun t => (t.pc, t.boundary, t.port)) (step (presentedAt 0x00B522AF (st 0x1000 3 5 0))) =
      some (0x8004, .resume, [.read 0x8000, .read 0x1000, .write 0x1000 8]) := by decide
/-- V-TRAP-2: a failed SC advances. -/
theorem test_trap_failed_sc :
    look (fun t => (t.pc, t.boundary, t.reg 6)) (step (presentedAt 0x18B5232F (st 0x1000 3 5 0))) =
      some (0x8004, .resume, 1) := by decide
/-- V-TRAP-3. -/
theorem test_trap_unknown_subcode :
    look (fun t => (t.pc, t.boundary, t.result)) (step (presentedAt 0x3000202F (st 0x1000 3 5 0))) =
      some (0x8000, .forward (.exceptionHandler []), some (.unhandled .unknownSubcode)) := by decide
/-- V-TRAP-5: another exception; the word is not looked at. -/
theorem test_trap_other_exception :
    look (fun t => (t.pc, t.boundary, t.port))
        (step { presentedAt 0x00B522AF (st 0x1000 3 5 0) with cause := ⟨false, 5⟩ }) =
      some (0x8000, .forward (.exceptionHandler []), []) := by decide
/-- V-TRAP-6: the program counter wraps. -/
theorem test_trap_pc_wraps :
    look (fun t => t.pc) (step (((st 0x1000 3 5 0).setPc 0xFFFFFFFC).withFetchWord 32 0x00B522AF)) = some 0 := by decide

/-- An interrupt of the code given, with the vector table of the V-INT vectors (entry 2 reserved). -/
def interrupted (c : Nat) : State :=
  { State.reset with
    boundary := .dispatch
    cause := ⟨true, c⟩
    plat := { Platform.default with vt := [⟨false, 10⟩, ⟨false, 11⟩, ⟨true, 12⟩, ⟨false, 13⟩] } }

/-- V-INT-1. -/
theorem test_interrupt_last_entry : look State.boundary (step (interrupted 3)) = some (.forward (.vectorHandler 13)) := by
  decide
/-- V-INT-2. -/
theorem test_interrupt_reserved : look State.boundary (step (interrupted 2)) = some (.forward .defaultHandler) := by decide
/-- V-INT-3. -/
theorem test_interrupt_out_of_range : look State.boundary (step (interrupted 4)) = some (.forward .defaultHandler) := by
  decide

/-- V-LR-6: a misaligned address under the default policy has no outcome. -/
theorem test_misaligned_refused : exec (.lr 5 10) (st 0x1002 0 0 0) = .fault (.dataMisaligned .read 0x1002) := rfl
/-- A write that puts the fill byte back leaves nothing listed. -/
theorem test_memory_canonical : ((State.reset.mem.storeWord .little 0x1000 7).storeWord .little 0x1000 0) =
    State.reset.mem := by decide

/-! ### Witnesses: a state and operands that meet the hypotheses of each statement that has them -/

/-- A state in which an LR, an SC on a match and any AMO through `x10` are admitted. -/
def ok : State := st 0x1000 3 5 0x1000

theorem ok_wf : ok.mem.wf = true := by decide
theorem ok_read : Admitted ok .read (ok.reg 10) := by unfold Admitted; decide
theorem ok_write : Admitted ok .write (ok.reg 10) := by unfold Admitted; decide

/-- AMOs, read and write admitted, at the boundary values of the alias cases too. -/
theorem witness_AmoEffect : ok.mem.wf = true ∧ Admitted ok .read (ok.reg 10) ∧ Admitted ok .write (ok.reg 10) :=
  ⟨ok_wf, ok_read, ok_write⟩
theorem witness_AmoEffect_read_refused :
    portRefusal (st 0x1002 0 0 0).plat .read ((st 0x1002 0 0 0).reg 10) = some (.dataMisaligned .read 0x1002) := by decide
/-- Read-only memory: the read is admitted and the write is not (R143). -/
def readOnly : State := { ok with plat := { Platform.default with regions := [⟨0, 2 ^ 32, true, false⟩] } }
theorem witness_AmoEffect_write_refused : Admitted readOnly .read (readOnly.reg 10) ∧
    portRefusal readOnly.plat .write (readOnly.reg 10) = some (.notAdmitted .write 0x1000) :=
  ⟨by unfold Admitted; decide, by decide⟩

theorem witness_MaskedWordSelectsTheOperation : 0x100522AF#32 &&& 0xF800007F#32 = matchWord .lr := by decide
theorem witness_DecodedWordIsAnEncoding : decodeWord 0x06B572AF#32 = .ok (.amoadd 5 10 11) := by decide
theorem witness_IgnoredBitsChangeNothing :
    0x00B522AF#32 &&& 0xF9FF8FFF#32 = 0x06B572AF#32 &&& 0xF9FF8FFF#32 ∧
      0x100522AF#32 &&& 0xF800007F#32 = 0x1000002F#32 ∧ 0x100522AF#32 &&& 0xF80F8FFF#32 = 0x11F522AF#32 &&& 0xF80F8FFF#32 := by
  decide
theorem witness_ByteDecoderReadsTheWord :
    decodeWord 0x1000A12F#32 = .ok (.lr 2 1) ∧ decodeWord 0x00000000#32 = .error .notAtomic := by decide
theorem witness_NonAtomicWordChangesNothing : isAtomic 0xFFFFFFFF#32 = false := by decide
theorem witness_UnknownSubcodeChangesNothing :
    isAtomic 0xFFFFFFAF#32 = true ∧ ∀ o, funct5 o ≠ (decodeFields 0xFFFFFFAF#32).subcode :=
  ⟨by decide, fun o => by cases o <;> decide⟩

theorem witness_LrReservesAndLoads : Admitted ok .read (ok.reg 10) ∧ 0x1000A12F#32 &&& 0xF800007F#32 = 0x1000002F#32 :=
  ⟨ok_read, by decide⟩
theorem witness_ScOnMatchStoresAndClears : ok.reg 10 = ok.res ∧ ok.mem.wf = true ∧ Admitted ok .write (ok.reg 10) :=
  ⟨by decide, ok_wf, ok_write⟩
theorem witness_ScOnMatch_refused :
    readOnly.reg 10 = readOnly.res ∧ portRefusal readOnly.plat .write (readOnly.reg 10) = some (.notAdmitted .write 0x1000) := by
  decide
/-- The neighbouring word (V-SC-4). -/
theorem witness_ScOnMismatchOnlyReports : (st 0x1004 0 0 0x1000).reg 10 ≠ (st 0x1004 0 0 0x1000).res := by decide
theorem witness_ScStoresAtTheReservation :
    (∃ t, exec (.sc 6 10 11) ok = .next t) ∧ (∃ t, exec (.sc 6 10 11) (st 0x1004 0 0 0x1000) = .next t) :=
  ⟨⟨_, rfl⟩, ⟨_, rfl⟩⟩
theorem witness_FailedScKeepsTheReservation : ∃ s1 s2, exec (.lr 5 10) ok = .next s1 ∧ s1.reg 11 ≠ ok.reg 10 ∧
    exec (.sc 8 11 5) s1 = .next s2 ∧ s2.reg 10 = ok.reg 10 ∧ Admitted s2 .write (ok.reg 10) :=
  ⟨_, _, rfl, by decide, rfl, by decide, by unfold Admitted; decide⟩
theorem witness_ScComparesAllAddressBits :
    (∃ t, exec (.sc 6 10 11) (st 0x1001 0 0 0x1000) = .next t) ∧
      (st 0x1001 0 0 0x1000).reg 10 = (st 0x1001 0 0 0x1000).res + 1 :=
  ⟨⟨_, rfl⟩, by decide⟩
theorem witness_SecondLrReplacesTheReservation : ∃ s1 s2, exec (.lr 5 10) ok = .next s1 ∧ exec (.lr 7 0) s1 = .next s2 ∧
    ok.reg 10 ≠ s1.reg 0 ∧ s2.reg 10 = ok.reg 10 ∧ s2.reg 0 = s1.reg 0 ∧ Admitted s2 .write (s1.reg 0) :=
  ⟨_, _, rfl, rfl, by decide, by decide, by decide, by unfold Admitted; decide⟩
/-- The last clause's address is not zero: both LRs at `0x1000`. -/
theorem witness_SecondLr_then_two_Scs : ∃ s1 s2 t, exec (.lr 5 10) ok = .next s1 ∧ exec (.lr 7 10) s1 = .next s2 ∧
    exec (.sc 8 10 11) s2 = .next t ∧ t.reg 10 = s1.reg 10 ∧ s1.reg 10 ≠ 0 :=
  ⟨_, _, _, rfl, rfl, rfl, by decide, by decide⟩
theorem witness_StepWritesResOnlyByLrOrSc :
    ∃ t, step (presentedAt 0x100522AF (st 0x1000 0 0x2A 0)) = .next t ∧ t.res ≠ (presentedAt 0x100522AF (st 0x1000 0 0x2A 0)).res :=
  ⟨_, rfl, by decide⟩
theorem witness_StepWritesRes_sc :
    ∃ t, step (presentedAt 0x18B5232F ok) = .next t ∧ t.res ≠ (presentedAt 0x18B5232F ok).res := ⟨_, rfl, by decide⟩

theorem witness_OnlyLrAndSuccessfulScWriteRes : (∃ t, exec (.lr 5 10) ok = .next t) ∧ (∃ t, exec (.sc 5 10 11) ok = .next t) ∧
    decodeWord 0x3000202F#32 = .error .unknownSubcode ∧ ∃ t, unitStep 0x3000202F#32 ok = .next t :=
  ⟨⟨_, rfl⟩, ⟨_, rfl⟩, by decide, ⟨_, rfl⟩⟩

/-- A move of the host: it changes `x12`, moves on, stores to the reserved word and traps on an illegal instruction. -/
def turn : HostTurn := { regs := [(12, 0x77)], pc := some 0x9000, stores := [(0x1000, 0x99)], cause := ⟨false, 2⟩ }

theorem witness_HostMovesKeepTheReservation :
    (∀ p ∈ turn.regs, p.1 ≠ 10) ∧ (∀ p ∈ turn.stores, p.1 ≠ 0x1001#32) ∧ turn.pc = some 0x9000#32 := by
  simp [turn]
/-- LR, a host store to the reserved word (V-SEQ-4), an AMO on it (V-SEQ-3), then the SC is admitted. -/
theorem witness_ScAfterQuietStretchSucceeds : ∃ s1 s2, ok.mem.wf = true ∧ exec (.lr 5 10) ok = .next s1 ∧
    Quiet (ok.reg 10) s1 s2 ∧ s2.reg 10 = ok.reg 10 ∧ Admitted s2 .write (ok.reg 10) :=
  ⟨_, _, ok_wf, rfl, .word 0x00B523AF#32 (.host turn (.refl _)) trivial rfl, by decide, by unfold Admitted; decide⟩
theorem witness_AddressZeroWithoutAReservation :
    State.reset.res = 0 ∧ State.reset.reg 10 = 0 ∧ State.reset.mem.wf = true ∧ Admitted State.reset .write 0 ∧
      (∃ t, exec (.lr 5 10) State.reset = .next t) ∧ (st 0x1000 0 0 0).res = 0 ∧ (st 0x1000 0 0 0).reg 10 ≠ 0 :=
  ⟨by decide, by decide, by decide, by unfold Admitted; decide, ⟨_, rfl⟩, by decide, by decide⟩
theorem witness_ScratchPairDropsTheReservation : ∃ s1 s2, exec (.lr 5 10) (st 0x1000 0 0 0x2000) = .next s1 ∧
    s1.reg 10 = (st 0x1000 0 0 0x2000).reg 10 ∧ exec (.sc 6 10 11) s1 = .next s2 :=
  ⟨_, _, rfl, by decide, rfl⟩
theorem witness_ResetHoldsNoReservation :
    (st 0x1000 0 0 0).res = 0 ∧ (st 0x1000 0 0 0).reg 10 ≠ 0 ∧ State.reset.reg 10 = 0 ∧ Admitted State.reset .write 0 ∧
      (Instr.amoadd 5 10 11).op ≠ .lr ∧ ∃ t, exec (.amoadd 5 10 11) (st 0x1000 0 0 0) = .next t :=
  ⟨by decide, by decide, by decide, by unfold Admitted; decide, by decide, ⟨_, rfl⟩⟩

theorem witness_SlotZeroIsAnOrdinarySlot :
    Admitted (ok.setReg 0 0x1000) .read ((ok.setReg 0 0x1000).reg 0) ∧ Admitted (ok.setReg 0 0x1000) .write ((ok.setReg 0 0x1000).reg 0) ∧
      (ok.setReg 0 0x1000).mem.wf = true :=
  ⟨by unfold Admitted; decide, by unfold Admitted; decide, by decide⟩
/-- Slot 0 as destination, as address and as operand, completing and stopping. -/
theorem witness_SlotZero_fields : (∃ t, exec (.lr 0 10) ok = .next t) ∧ (∃ t, exec (.sc 5 0 11) ok = .next t) ∧
    (∃ t, exec (.amomax 5 10 0) ok = .next t) ∧ exec (.lr 0 10) (st 0x1002 0 0 0) = .fault (.dataMisaligned .read 0x1002) :=
  ⟨⟨_, rfl⟩, ⟨_, rfl⟩, ⟨_, rfl⟩, rfl⟩
/-- R106 (d), (e): slot 0 receives the old word where it is also the address and the operand. -/
theorem test_slot_zero_receives_old_word :
    look (fun t => (t.reg 0, t.wordAt 0x1000)) (exec (.amoadd 0 0 0) (ok.setReg 0 0x1000)) = some (5, 0x1005) := by decide
/-- Both sides of the sign-bit statement occur. -/
theorem witness_SignedAndUnsignedDiffer : (0x80000000#32).msb ≠ (0x7FFFFFFF#32).msb ∧ (1#32).msb = (2#32).msb := by decide
theorem witness_AmoNeitherReadsNorWritesRes : ∃ t, isAmo (.amoswap 5 10 11) = true ∧ exec (.amoswap 5 10 11) ok = .next t ∧
    t.reg 10 = ok.res ∧ Admitted t .write ok.res :=
  ⟨_, rfl, rfl, by decide, by unfold Admitted; decide⟩
theorem witness_OneSlotWrittenNamedSlotsRead :
    (∃ t, exec (.lr 5 10) ok = .next t) ∧ 11 ∉ readSlots (.lr 5 10) ok ∧ 11 ∉ readSlots (.sc 5 10 11) (st 0x1004 0 0 0) ∧
      12 ∉ readSlots (.amoadd 5 10 11) ok ∧ decodeWord 0x3000202F#32 = .error .unknownSubcode :=
  ⟨⟨_, rfl⟩, by decide, by decide, by decide, by decide⟩
/-- The destination is also the address register, and also the value register. -/
theorem witness_OneSlotWritten_alias : (∃ t, exec (.amoadd 10 10 11) ok = .next t) ∧ (∃ t, exec (.amoadd 11 10 11) ok = .next t) ∧
    (∃ t, exec (.sc 10 10 11) ok = .next t) ∧ ∃ t, exec (.sc 10 10 11) (st 0x1004 0 0 0) = .next t :=
  ⟨⟨_, rfl⟩, ⟨_, rfl⟩, ⟨_, rfl⟩, ⟨_, rfl⟩⟩
theorem witness_UnitNeverTouchesPc : (∃ t, unitStep 0x100522AF#32 ok = .next t) ∧
    unitStep 0x100522AF#32 (st 0x1002 0 0 0) = .fault (.dataMisaligned .read 0x1002) :=
  ⟨⟨_, rfl⟩, rfl⟩
theorem witness_InvocationIsAllOrNothing :
    (∃ t, unitStep 0x00B522AF#32 ok = .next t) ∧ ∃ t, unitStep 0x00000013#32 ok = .next t :=
  ⟨⟨_, rfl⟩, ⟨_, rfl⟩⟩
theorem witness_RequestsAreThoseOfTheTable :
    (∃ t, exec (.lr 5 10) ok = .next t) ∧ (∃ t, exec (.sc 5 10 11) ok = .next t) ∧ (∃ t, exec (.amomin 5 10 11) ok = .next t) ∧
      (∃ t, unitStep 0x00000013#32 ok = .next t) ∧ decodeWord 0x00000013#32 = .error .notAtomic :=
  ⟨⟨_, rfl⟩, ⟨_, rfl⟩, ⟨_, rfl⟩, ⟨_, rfl⟩, by decide⟩

/-- One trap whose word is an instruction and one whose word is none. -/
theorem witness_RequestsOfAStep :
    (∃ t, step (presentedAt 0x00B522AF ok) = .next t) ∧
      decodeWord ((presentedAt 0x00B522AF ok).wordAt (presentedAt 0x00B522AF ok).pc) = .ok (.amoadd 5 10 11) ∧
      (∃ t, step (presentedAt 0x3000202F ok) = .next t) ∧
      decodeWord ((presentedAt 0x3000202F ok).wordAt (presentedAt 0x3000202F ok).pc) = .error .unknownSubcode :=
  ⟨⟨_, rfl⟩, by decide, ⟨_, rfl⟩, by decide⟩

/-- The last word of memory: its bytes are the last four addresses. -/
theorem witness_BytesOfAWordInOrder : ok.mem.wf = true ∧ 3 < 4 ∧ (0xFFFFFFFF#32 + BitVec.ofNat 32 3).toNat = 2 :=
  ⟨ok_wf, by decide, by decide⟩
theorem witness_ReadReturnsTheWordWritten : ok.mem.wf = true ∧ Admitted ok .write 0xFFFFFFFC ∧ Admitted ok .read 0xFFFFFFFC :=
  ⟨ok_wf, by unfold Admitted; decide, by unfold Admitted; decide⟩
theorem witness_PortAdmitsByPolicyAndRegion :
    portRefusal Platform.default .read 0xFFFFFFFC = none ∧ (0x1002#32).toNat % 4 ≠ 0 ∧ Platform.default.misaligned = .refuse ∧
      ({ Platform.default with misaligned := .trap } : Platform).misaligned = .trap := by decide
/-- A platform with no memory: no byte is in a region. -/
def bare : Platform := { Platform.default with regions := [] }
theorem bare_not_inRegions (k : AccessKind) (a : Word) : ¬ InRegions bare k a := fun h => by
  obtain ⟨_, hr, -⟩ := h 0 (by decide)
  cases hr
/-- The clauses on refusal: aligned with no byte admitted, data and fetch; a misaligned fetch. -/
theorem witness_PortAdmits_refusals : (0x1000#32).toNat % 4 = 0 ∧ ¬ InRegions bare .write 0x1000 ∧
    ¬ InRegions bare .read 0x8000 ∧ (0x8002#32).toNat % 4 ≠ 0 ∧ Platform.default.fetch = .refuse ∧
      fetchRefusal Platform.default 0xFFFFFFFC = none :=
  ⟨by decide, bare_not_inRegions _ _, bare_not_inRegions _ _, by decide, by decide, by decide⟩
/-- A trap whose fetch is refused. -/
theorem witness_PortAdmits_fetch_stop :
    let s : State := { presentedAt 0x100522AF ok with pc := 0x8002 }
    s.boundary = .dispatch ∧ s.cause = illegalCause s.plat ∧ fetchRefusal s.plat s.pc = some (.fetchMisaligned 0x8002) := by
  decide

/-- A word presented to the boundary. -/
theorem witness_StepRunsTheDecodedInstruction :
    (presentedAt 0x00B522AF ok).boundary = .dispatch ∧
      (presentedAt 0x00B522AF ok).cause = illegalCause (presentedAt 0x00B522AF ok).plat ∧
      fetchRefusal (presentedAt 0x00B522AF ok).plat (presentedAt 0x00B522AF ok).pc = none ∧
      decodeWord ((presentedAt 0x00B522AF ok).wordAt (presentedAt 0x00B522AF ok).pc) = .ok (.amoadd 5 10 11) := by decide
/-- The same word met after `Resume`, with no move of the host left. -/
def resumed : State := { presentedAt 0x00B522AF ok with boundary := .resume }
theorem witness_StepRuns_after_resume : resumed.boundary = .resume ∧ resumed.host = [] ∧
    fetchRefusal resumed.plat resumed.pc = none ∧ decodeWord (resumed.wordAt resumed.pc) = .ok (.amoadd 5 10 11) := by decide
theorem witness_HandledWordAdvancesPc :
    (∃ t, step (presentedAt 0x00B522AF ok) = .next t ∧ t.result = some .handled) ∧
      decodeWord ((presentedAt 0x18B5232F (st 0x1004 0 0 0)).wordAt (presentedAt 0x18B5232F (st 0x1004 0 0 0)).pc) =
        .ok (.sc 6 10 11) ∧
      (presentedAt 0x18B5232F (st 0x1004 0 0 0)).reg 10 ≠ (presentedAt 0x18B5232F (st 0x1004 0 0 0)).res :=
  ⟨⟨_, rfl, by decide⟩, by decide, by decide⟩
theorem witness_UnhandledWordIsForwarded :
    (presentedAt 0x3000202F ok).boundary = .dispatch ∧
      (presentedAt 0x3000202F ok).cause = illegalCause (presentedAt 0x3000202F ok).plat ∧
      fetchRefusal (presentedAt 0x3000202F ok).plat (presentedAt 0x3000202F ok).pc = none ∧
      decodeWord ((presentedAt 0x3000202F ok).wordAt (presentedAt 0x3000202F ok).pc) = .error .unknownSubcode := by decide
/-- A platform whose handler is shown the program counter and two slots. -/
def viewed : State :=
  { presentedAt 0x00000013 ok with plat := { Platform.default with ctxView := [.pc, .x 10, .x 11] } }
theorem witness_HandlerSeesTheContextView : viewed.boundary = .dispatch ∧
    ∃ t, step viewed = .next t ∧
      t.boundary = .forward (.exceptionHandler [(.pc, 0x8000), (.x 10, 0x1000), (.x 11, 3)]) :=
  ⟨rfl, _, rfl, by decide⟩
theorem witness_OtherExceptionIsForwarded :
    ({ presentedAt 0x00B522AF ok with cause := ⟨false, 5⟩ } : State).boundary = .dispatch ∧ (5 : Nat) ≠ ok.plat.excIllegal := by
  decide
theorem witness_InterruptSelectsItsHandler :
    (interrupted 3).boundary = .dispatch ∧ (interrupted 3).cause.isInterrupt = true ∧
      (interrupted 3).plat.vt[(interrupted 3).cause.code]? = some ⟨false, 13⟩ ∧
      (interrupted 2).plat.vt[(interrupted 2).cause.code]? = some ⟨true, 12⟩ ∧
      (interrupted 4).cause.code ≥ (interrupted 4).plat.vt.length := by decide
theorem witness_InterruptLeavesFrameAndRes : (interrupted 0).boundary = .dispatch ∧ ∃ t, step (interrupted 0) = .next t :=
  ⟨rfl, _, rfl⟩
/-- One trap that resumes and one that forwards. -/
theorem witness_TrapResumesOrCallsOneHandler :
    (∃ t, step (presentedAt 0x00B522AF ok) = .next t) ∧ ∃ t, step (presentedAt 0x3000202F ok) = .next t :=
  ⟨⟨_, rfl⟩, ⟨_, rfl⟩⟩
/-- After `Resume`: a word at `pc` that is not atomic, one that cannot be fetched, an atomic one. -/
theorem witness_UnitWaits_after_resume :
    let s : State := { presentedAt 0x00000013 ok with boundary := .resume }
    s.boundary = .resume ∧ s.host = [] ∧ isAtomic (s.wordAt s.pc) = false ∧
      fetchRefusal ({ s with pc := 0x8002 } : State).plat ({ s with pc := 0x8002 } : State).pc ≠ none ∧
      fetchRefusal resumed.plat resumed.pc = none ∧ isAtomic (resumed.wordAt resumed.pc) = true := by decide
theorem witness_UnitWaitsToBeInvoked :
    State.reset.boundary = .waiting ∧ State.reset.host = [] ∧
      ({ State.reset with host := [turn] } : State).boundary ≠ .dispatch := by decide
/-- V-SEQ-5's words, placed at `pc`. -/
theorem witness_FetchSeesTheWordInMemory : ok.mem.wf = true ∧ fetchRefusal ok.plat ok.pc = none ∧
    decodeWord 0x00000013#32 = .error .notAtomic ∧ decodeWord 0x100522AF#32 = .ok (.lr 5 10) :=
  ⟨ok_wf, by decide, by decide, by decide⟩
theorem presentedAt_inv : (presentedAt 0x00B522AF ok).Inv := ⟨by decide, by decide, by decide, by decide⟩
theorem witness_StepKeepsTheInvariant :
    (presentedAt 0x00B522AF ok).Inv ∧ ∃ t, step (presentedAt 0x00B522AF ok) = .next t :=
  ⟨presentedAt_inv, _, rfl⟩
theorem witness_StepKeepsPlatformNeverRefuses : ∃ t, step (presentedAt 0x00B522AF ok) = .next t := ⟨_, rfl⟩
/-- A fault of the data port and a fault of the fetch. -/
theorem witness_OnlyThePortStopsAStep :
    step (presentedAt 0x100522AF (st 0x1002 0 0 0)) = .fault (.dataMisaligned .read 0x1002) ∧
      step { presentedAt 0x100522AF ok with pc := 0x8002 } = .fault (.fetchMisaligned 0x8002) :=
  ⟨rfl, rfl⟩

/-- The other side: the trap taken, and the first of its requests refused, at the write of an AMO. -/
theorem witness_OnlyThePort_converse :
    let u := presentedAt 0x00B522AF readOnly
    u.nextTrap = some u ∧ u.cause = illegalCause u.plat ∧ fetchRefusal u.plat u.pc = none ∧
      decodeWord (u.wordAt u.pc) = .ok (.amoadd 5 10 11) ∧
      firstRefusal u.plat (dataRequests (.amoadd 5 10 11) u) = some (.notAdmitted .write 0x1000) :=
  ⟨rfl, rfl, by decide, by decide, by decide⟩

/-- The default platform with both policies `bytewise` admits every request. -/
theorem witness_StepIsTotalWhereThePortAdmits :
    AdmitsAll { Platform.default with misaligned := .bytewise, fetch := .bytewise } := by
  have hb : ∀ (k : AccessKind) (a : Word),
      admitsByte { Platform.default with misaligned := .bytewise, fetch := .bytewise } k a = true := by
    intro k a
    have := a.isLt
    cases k <;> simp [admitsByte, Platform.default] <;> omega
  exact ⟨fun k a => by simp [portRefusal, admitsWord, wordAddrs, hb], fun a => by simp [fetchRefusal, admitsWord, wordAddrs, hb]⟩

end Sys2Proof.Tests
end

/-! ## Which slot an instruction writes and which slots it reads (R27 of spec/10_state.md)

The state a completing instruction leaves is a function of the tables of Safety.lean: the value written, the requests made,
and `RES` after. What an instruction depends on is then what its tables depend on. -/

namespace Sys2Proof.Machine

open Sys2Proof

/-! ### The state a completing instruction leaves -/

/-- `RES` after an instruction, in terms of the state before (R78, R79 of spec/41_lr_sc.md, R104 of spec/42_amo.md). -/
def resAfter (i : Instr) (s : State) : Word :=
  match i with
  | .lr _ rs1 => s.reg rs1
  | .sc _ rs1 _ => if s.reg rs1 = s.res then 0#32 else s.res
  | _ => s.res

/-- Memory after one admitted request: a write stores its word, a read changes nothing (R31, R32 of spec/20_memory.md). -/
def Memory.afterRequest (e : Endian) (m : Memory) : PortRequest → Memory
  | .read _ => m
  | .write a v => m.storeWord e a v

/-- The state a completing instruction leaves, by its tables. -/
def execDone (i : Instr) (s : State) : State :=
  { s.setReg i.rd (valueWritten i s) with
    res := resAfter i s
    mem := (dataRequests i s).foldl (Memory.afterRequest s.plat.endian) s.mem
    port := s.port ++ dataRequests i s
    result := some .handled }

@[simp] theorem reg_execDone (i : Instr) (s : State) (r : RegIdx) :
    (execDone i s).reg r = (s.setReg i.rd (valueWritten i s)).reg r := rfl
@[simp] theorem execDone_res (i : Instr) (s : State) : (execDone i s).res = resAfter i s := rfl
@[simp] theorem execDone_mem (i : Instr) (s : State) :
    (execDone i s).mem = (dataRequests i s).foldl (Memory.afterRequest s.plat.endian) s.mem := rfl
@[simp] theorem execDone_port (i : Instr) (s : State) : (execDone i s).port = s.port ++ dataRequests i s := rfl
@[simp] theorem execDone_result (i : Instr) (s : State) : (execDone i s).result = some .handled := rfl

/-- The state an AMO leaves, with its two requests taken together. -/
theorem amoDone_eq (f : Word → Word → Word) (rd rs1 rs2 : RegIdx) (s : State) :
    amoDone f rd rs1 rs2 s =
      { s.setReg rd (s.wordAt (s.reg rs1)) with
        mem := (amoRequests f rs1 rs2 s).foldl (Memory.afterRequest s.plat.endian) s.mem
        port := s.port ++ amoRequests f rs1 rs2 s
        result := some .handled } := by
  simp [amoDone, amoRequests, Memory.afterRequest, State.handled, State.setResult, State.logPort, State.setMem, State.setReg]

/-- A completing AMO leaves the state of its requests. -/
theorem amo_next_eq {f : Word → Word → Word} {rd rs1 rs2 : RegIdx} {s t : State} (h : amo f rd rs1 rs2 s = .next t) :
    t = amoDone f rd rs1 rs2 s := by
  obtain ⟨-, -, c⟩ | ⟨e, -, c⟩ | ⟨e, -, -, c⟩ := amo_cases f rd rs1 rs2 s
  · exact Host.Outcome.next.inj (h.symm.trans c)
  · cases h.symm.trans c
  · cases h.symm.trans c

/-- A completing instruction leaves the state of its tables. -/
theorem exec_next_eq {i : Instr} {s t : State} (h : exec i s = .next t) : t = execDone i s := by
  cases i
  case lr rd rs1 =>
    obtain ⟨-, c⟩ | ⟨e, -, c⟩ := execLr_cases rd rs1 s
    · exact Host.Outcome.next.inj (h.symm.trans c)
    · cases h.symm.trans c
  case sc rd rs1 rs2 =>
    obtain ⟨hm, c⟩ | ⟨hm, -, c⟩ | ⟨e, -, -, c⟩ := execSc_cases rd rs1 rs2 s
    · rw [Host.Outcome.next.inj (h.symm.trans c)]
      simp [execDone, resAfter, dataRequests, valueWritten, Instr.rd, hm, State.handled, State.setResult, State.setReg]
    · rw [Host.Outcome.next.inj (h.symm.trans c)]
      simp [execDone, scDone, resAfter, dataRequests, valueWritten, Instr.rd, hm, Memory.afterRequest, State.handled,
        State.setResult, State.logPort, State.setMem, State.setRes, State.setReg]
    · cases h.symm.trans c
  all_goals exact (amo_next_eq h).trans (amoDone_eq _ _ _ _ s)

/-- An instruction completes, with the state of its tables, where the port admits every request of its table. -/
theorem exec_of_admitted {i : Instr} {s : State} (h : firstRefusal s.plat (dataRequests i s) = none) :
    exec i s = .next (execDone i s) := by
  obtain ⟨t, ht, -⟩ | ⟨f, -, hf⟩ := exec_outcome i s
  · rw [ht, exec_next_eq ht]
  · simp [h] at hf

/-- An instruction that completes has had every request of its table admitted. -/
theorem admitted_of_exec_next {i : Instr} {s t : State} (h : exec i s = .next t) :
    firstRefusal s.plat (dataRequests i s) = none := by
  obtain ⟨-, -, ha, -⟩ | ⟨f, hf, -⟩ := exec_outcome i s
  · exact ha
  · cases h.symm.trans hf

/-! ### The tables and the slots they read -/

@[simp] theorem wordAt_setReg (s : State) (k : RegIdx) (v a : Word) : (s.setReg k v).wordAt a = s.wordAt a := rfl

/-- The tables of an instruction do not depend on a slot it does not read. -/
theorem tables_setReg {i : Instr} {s : State} {k : RegIdx} (hk : k ∉ readSlots i s) (v : Word) :
    valueWritten i (s.setReg k v) = valueWritten i s ∧ resAfter i (s.setReg k v) = resAfter i s ∧
      dataRequests i (s.setReg k v) = dataRequests i s := by
  have hread : ∀ j ∈ readSlots i s, (s.setReg k v).reg j = s.reg j := fun j hj =>
    reg_setReg_other s k j v (fun e => hk (e ▸ hj))
  cases i
  case sc rd rs1 rs2 =>
    by_cases hm : s.reg rs1 = s.res
    · simp only [readSlots, if_pos hm, List.forall_mem_cons] at hread
      simp [valueWritten, resAfter, dataRequests, hread, hm]
    · simp only [readSlots, if_neg hm, List.forall_mem_cons] at hread
      simp [valueWritten, resAfter, dataRequests, hread, hm]
  all_goals
    simp only [readSlots, List.forall_mem_cons] at hread
    simp [valueWritten, resAfter, dataRequests, amoRequests, hread]

/-! ### Words that are no instruction -/

/-- A word that does not decode leaves the state as it was but for the result. -/
theorem unitStep_of_error {w : IWord} {r : UnhandledReason} (h : decodeWord w = .error r) (s : State) :
    unitStep w s = .next (s.setResult (.unhandled r)) := by
  simp [unitStep, h]

/-- Settles O37: the state after is that of the tables, which depend on the slots of `readSlots` only. -/
theorem oneSlotWrittenNamedSlotsRead : Obligations.OneSlotWrittenNamedSlotsRead := by
  unfold Obligations.OneSlotWrittenNamedSlotsRead
  refine ⟨fun i s t h => ?_, fun w r s h => ?_⟩
  · have hadm := admitted_of_exec_next h
    obtain rfl := exec_next_eq h
    refine ⟨by simp, fun r hr => by simp [hr], fun k v hk => ?_⟩
    obtain ⟨hval, hres, hreq⟩ := tables_setReg hk v
    have hdone : exec i (s.setReg k v) = .next (execDone i (s.setReg k v)) := exec_of_admitted (by rw [hreq]; exact hadm)
    exact ⟨_, hdone, by simp [hval], by simp [hreq], by simp [hres], by simp [hreq], by simp⟩
  · exact ⟨_, unitStep_of_error h s, rfl, fun k v => unitStep_of_error h (s.setReg k v)⟩

end Sys2Proof.Machine

/-! ## The fields of a word (R51 of spec/30_encoding.md)

A field is a slice of the word; a slice is the word shifted down and masked to the field's width. -/

namespace Sys2Proof

/-- A slice is the word shifted right by its lowest position, masked to its length. -/
theorem toNat_slice_eq_shift_mask {n len : Nat} (w : BitVec n) (lo : Nat) (h : len ≤ n) :
    (w.extractLsb' lo len).toNat = ((w >>> lo) &&& BitVec.ofNat n (2 ^ len - 1)).toNat := by
  have hmask : (2 ^ len - 1) % 2 ^ n = 2 ^ len - 1 :=
    Nat.mod_eq_of_lt ((Nat.sub_one_lt_of_lt (Nat.two_pow_pos len)).trans_le (Nat.pow_le_pow_right two_pos h))
  rw [BitVec.extractLsb'_toNat, BitVec.toNat_and, BitVec.toNat_ushiftRight, BitVec.toNat_ofNat, hmask,
    Nat.and_two_pow_sub_one_eq_mod]

/-- The number in a register field is its five-bit slice. -/
theorem regField_val (w : IWord) (lo : Nat) : (regField w lo).val = (w.extractLsb' lo 5).toNat := rfl

/-- The number in a register field is the word shifted right by the field's lowest position, masked to five bits. -/
theorem regField_val_eq_shift_mask (w : IWord) (lo : Nat) : (regField w lo).val = ((w >>> lo) &&& 0x1F#32).toNat :=
  (regField_val w lo).trans (toNat_slice_eq_shift_mask w lo (by decide))

/-- The opcode is the word masked to seven bits. -/
theorem opcodeOf_toNat_eq_mask (w : IWord) : (opcodeOf w).toNat = (w &&& 0x7F#32).toNat := by
  have h : (opcodeOf w).toNat = ((w >>> 0) &&& 0x7F#32).toNat := toNat_slice_eq_shift_mask w 0 (by decide)
  rwa [BitVec.ushiftRight_zero] at h

/-- Settles O2: the decoder takes the slices as they stand, and each slice is the word shifted and masked. -/
theorem fieldsAreTheSlices : Obligations.FieldsAreTheSlices := by
  unfold Obligations.FieldsAreTheSlices
  intro w
  have opcode := opcodeOf_toNat_eq_mask w
  have reg (lo : Nat) := And.intro (regField_val w lo) (regField_val_eq_shift_mask w lo)
  have subcode := toNat_slice_eq_shift_mask w 27 (show 5 ≤ 32 by decide)
  exact ⟨⟨rfl, opcode⟩, reg 7, reg 15, reg 20, rfl, subcode⟩

end Sys2Proof

/-! ## Decode and dispatch (spec/40_decode_dispatch.md)

`is_atomic` compares the opcode only; an invocation is the operation the word decodes to, or `Unhandled`. -/

namespace Sys2Proof

/-- `is_atomic` compares the opcode field with `OPC_AMO`. -/
theorem isAtomic_iff_opcodeOf (w : IWord) : isAtomic w = true ↔ opcodeOf w = opcAmo := beq_iff_eq

/-- `is_atomic` in mask form: both sides say that the opcode's number is 47. -/
theorem isAtomic_iff_mask (w : IWord) : isAtomic w = true ↔ w &&& 0x7F#32 = 0x2F#32 := by
  calc isAtomic w = true
    _ ↔ opcodeOf w = opcAmo := isAtomic_iff_opcodeOf w
    _ ↔ (opcodeOf w).toNat = 47 := BitVec.toNat_inj.symm
    _ ↔ (w &&& 0x7F#32).toNat = 47 := by rw [opcodeOf_toNat_eq_mask]
    _ ↔ w &&& 0x7F#32 = 0x2F#32 := BitVec.toNat_inj (y := 0x2F#32)

/-- The decoder refuses a word that is not atomic by its opcode alone (R70). -/
theorem decodeWord_of_not_atomic {w : IWord} (h : isAtomic w = false) : decodeWord w = .error .notAtomic := by
  simp [decodeWord, h]

/-- Settles O1: the opcode field is bits 6:0, and masking to them gives the same number. -/
theorem isAtomicTestsLowSevenBits : Obligations.IsAtomicTestsLowSevenBits := by
  unfold Obligations.IsAtomicTestsLowSevenBits
  exact fun w => ⟨isAtomic_iff_opcodeOf w, isAtomic_iff_mask w⟩

namespace Machine

/-- A word that decodes runs its instruction. -/
theorem unitStep_of_ok {w : IWord} {i : Instr} (h : decodeWord w = .ok i) (s : State) : unitStep w s = exec i s := by
  simp [unitStep, h]

/-- A completing instruction answers `Handled`. -/
theorem exec_next_result {i : Instr} {s t : State} (h : exec i s = .next t) : t.result = some .handled := by
  rw [exec_next_eq h, execDone_result]

/-- Settles O39, by whether the word decodes: an instruction that completes answers `Handled`, and a refused word sets
the result only. -/
theorem invocationIsAllOrNothing : Obligations.InvocationIsAllOrNothing := by
  unfold Obligations.InvocationIsAllOrNothing
  intro w s t h
  cases hd : decodeWord w with
  | ok i =>
    have hexec : exec i s = .next t := (unitStep_of_ok hd s).symm.trans h
    exact .inl ⟨i, rfl, hexec, exec_next_result hexec⟩
  | error r =>
    obtain rfl : s.setResult (.unhandled r) = t := Host.Outcome.next.inj ((unitStep_of_error hd s).symm.trans h)
    exact .inr ⟨r, rfl, by simp⟩

/-- Settles O10: every word that is not atomic decodes to the same refusal, which sets the result only, whatever the
state. -/
theorem nonAtomicWordChangesNothing : Obligations.NonAtomicWordChangesNothing := by
  unfold Obligations.NonAtomicWordChangesNothing
  intro w s hw
  have refused {v : IWord} (hv : isAtomic v = false) (u : State) :
      unitStep v u = .next (u.setResult (.unhandled .notAtomic)) :=
    unitStep_of_error (decodeWord_of_not_atomic hv) u
  exact ⟨_, refused hw s, rfl, rfl, rfl, rfl, rfl, rfl, fun k v => refused hw (s.setReg k v), fun _ hv => refused hv s⟩

end Machine

end Sys2Proof

/-! ## Load-reserved and store-conditional (spec/41_lr_sc.md)

An SC has one outcome on a mismatch and one on an admitted match; a completing instruction leaves `RES` as `resAfter`
says. -/

namespace Sys2Proof.Machine

open Sys2Proof

/-- The state a failed SC leaves: the failure code in `x[rd]` and the result. -/
def scFailed (rd : RegIdx) (s : State) : State := (s.setReg rd 1#32).handled

/-- On a mismatch SC completes with `scFailed`. -/
theorem exec_sc_of_mismatch {rs1 : RegIdx} {s : State} (hm : s.reg rs1 ≠ s.res) (rd rs2 : RegIdx) :
    exec (.sc rd rs1 rs2) s = .next (scFailed rd s) := by
  obtain ⟨-, e⟩ | ⟨h, -⟩ | ⟨-, h, -⟩ := execSc_cases rd rs1 rs2 s
  · exact e
  · exact absurd h hm
  · exact absurd h hm

/-- On a match SC completes with `scDone` where the port admits its write. -/
theorem exec_sc_of_match {rs1 : RegIdx} {s : State} (hm : s.reg rs1 = s.res) (ha : Admitted s .write s.res)
    (rd rs2 : RegIdx) : exec (.sc rd rs1 rs2) s = .next (scDone rd rs2 s) := by
  obtain ⟨h, -⟩ | ⟨-, -, e⟩ | ⟨f, -, hf, -⟩ := execSc_cases rd rs1 rs2 s
  · exact absurd hm h
  · exact e
  · cases ha.symm.trans hf

/-- An SC that completes on a mismatch leaves `scFailed`. -/
theorem eq_scFailed_of_exec_sc {rd rs1 rs2 : RegIdx} {s t : State} (hm : s.reg rs1 ≠ s.res)
    (h : exec (.sc rd rs1 rs2) s = .next t) : t = scFailed rd s :=
  Host.Outcome.next.inj (h.symm.trans (exec_sc_of_mismatch hm rd rs2))

/-- An SC that completes on a match leaves `scDone`. -/
theorem eq_scDone_of_exec_sc {rd rs1 rs2 : RegIdx} {s t : State} (hm : s.reg rs1 = s.res)
    (h : exec (.sc rd rs1 rs2) s = .next t) : t = scDone rd rs2 s := by
  obtain ⟨hne, -⟩ | ⟨-, -, e⟩ | ⟨f, -, -, e⟩ := execSc_cases rd rs1 rs2 s
  · exact absurd hm hne
  · exact Host.Outcome.next.inj (h.symm.trans e)
  · cases h.symm.trans e

@[simp] theorem scFailed_res (rd : RegIdx) (s : State) : (scFailed rd s).res = s.res := rfl
@[simp] theorem scFailed_mem (rd : RegIdx) (s : State) : (scFailed rd s).mem = s.mem := rfl
@[simp] theorem scFailed_port (rd : RegIdx) (s : State) : (scFailed rd s).port = s.port := rfl
@[simp] theorem scFailed_pc (rd : RegIdx) (s : State) : (scFailed rd s).pc = s.pc := rfl
@[simp] theorem reg_scFailed (rd r : RegIdx) (s : State) : (scFailed rd s).reg r = (s.setReg rd 1#32).reg r := rfl

@[simp] theorem scDone_mem (rd rs2 : RegIdx) (s : State) :
    (scDone rd rs2 s).mem = s.mem.storeWord s.plat.endian s.res (s.reg rs2) := rfl
@[simp] theorem scDone_port (rd rs2 : RegIdx) (s : State) :
    (scDone rd rs2 s).port = s.port ++ [.write s.res (s.reg rs2)] := rfl
@[simp] theorem scDone_plat (rd rs2 : RegIdx) (s : State) : (scDone rd rs2 s).plat = s.plat := rfl
@[simp] theorem reg_scDone (rd rs2 r : RegIdx) (s : State) : (scDone rd rs2 s).reg r = (s.setReg rd 0#32).reg r := rfl

/-- After a successful SC the reserved word is `x[rs2]`. -/
theorem wordAt_scDone {s : State} (hw : s.mem.wf = true) (rd rs2 : RegIdx) :
    (scDone rd rs2 s).wordAt s.res = s.reg rs2 := by
  simp [State.wordAt, loadWord_storeWord_same hw]

/-- A successful SC changes no byte outside the reserved word. -/
theorem memSameOutside_scDone (rd rs2 : RegIdx) (s : State) : MemSameOutside s.res s (scDone rd rs2 s) :=
  fun _ hb => read_storeWord_other _ _ _ _ hb

/-- A completing instruction leaves `RES` as `resAfter` says. -/
theorem exec_next_res {i : Instr} {s t : State} (h : exec i s = .next t) : t.res = resAfter i s := by
  rw [exec_next_eq h, execDone_res]

/-- Settles O15: the state after is `scDone` on a match and `scFailed` on a mismatch. -/
theorem scStoresAtTheReservation : Obligations.ScStoresAtTheReservation := by
  unfold Obligations.ScStoresAtTheReservation
  refine fun rd rs1 rs2 s t h => ⟨fun hm hw => ?_, fun hm => ?_⟩
  · obtain rfl := eq_scDone_of_exec_sc hm h
    exact ⟨scDone_port rd rs2 s, wordAt_scDone hw rd rs2, memSameOutside_scDone rd rs2 s⟩
  · rw [eq_scFailed_of_exec_sc hm h, scFailed_port]

/-- Settles O16: `RES` is the address of the LR, the failed SC leaves it, and so the last SC meets a match. -/
theorem failedScKeepsTheReservation : Obligations.FailedScKeepsTheReservation := by
  unfold Obligations.FailedScKeepsTheReservation
  refine ⟨fun rd rs1 rs2 s t hm h => ?_, fun d1 ra d2 rb v2 d3 r3 v3 s s1 s2 hlr hne hsc hr3 hadm => ?_⟩
  · obtain rfl := eq_scFailed_of_exec_sc hm h
    exact ⟨scFailed_res rd s, scFailed_mem rd s, scFailed_port rd s, scFailed_pc rd s, fun r hr => by simp [hr]⟩
  · have hres1 : s1.res = s.reg ra := exec_next_res hlr
    have hres2 : s2.res = s.reg ra := by rw [eq_scFailed_of_exec_sc (hres1 ▸ hne) hsc, scFailed_res, hres1]
    rw [← hres2] at hr3 hadm
    exact ⟨_, exec_sc_of_match hr3 hadm d3 v3, by simp⟩

/-- Settles O19: the table of `RES` after each instruction is `resAfter`'s, and a refused word sets the result only. -/
theorem onlyLrAndSuccessfulScWriteRes : Obligations.OnlyLrAndSuccessfulScWriteRes := by
  unfold Obligations.OnlyLrAndSuccessfulScWriteRes
  refine ⟨rfl, fun i s t h => ?_, fun w r s t hd h => ?_⟩
  · rw [exec_next_res h]
    cases i <;> rfl
  · obtain rfl : s.setResult (.unhandled r) = t := Host.Outcome.next.inj ((unitStep_of_error hd s).symm.trans h)
    exact setResult_res s _

end Sys2Proof.Machine

/-! ## Forwarding (spec/60_exceptions.md)

A trap that does not resume ends in one external call on the frame as the host saved it: a refused word and any other
exception call the exception handler, an interrupt calls the handler its code selects. -/

namespace Sys2Proof.Machine

open Sys2Proof

/-- A presented trap on a word the decoder refuses: the result is the reason, and the exception is forwarded (R111). -/
theorem step_of_unhandled {s : State} {r : UnhandledReason} (hb : s.boundary = .dispatch)
    (hc : s.cause = illegalCause s.plat) (hf : fetchRefusal s.plat s.pc = none)
    (hd : decodeWord (s.wordAt s.pc) = .error r) :
    step s = .next ((presented s).setResult (.unhandled r)).forwardException := by
  obtain ⟨hnext, -, -⟩ := trapEntry_emulate hc hf
  rw [step_dispatch hb, hnext _ (unitStep_of_error hd _), afterUnit_unhandled (setResult_result _ _)]

/-- Settles O46: only the result and the request of the fetch are set before the exception is forwarded. -/
theorem unhandledWordIsForwarded : Obligations.UnhandledWordIsForwarded := by
  unfold Obligations.UnhandledWordIsForwarded
  intro s r hb hc hf hd
  obtain ⟨hx, hpc, hres, hmem, -, hresult, hport, -, -, hcall⟩ :=
    forwardException_fields ((presented s).setResult (.unhandled r))
  exact ⟨_, step_of_unhandled hb hc hf hd, hresult, hx, hpc, hmem, hres, hport, _, hcall⟩

/-- Settles O48: the exception is forwarded from the state just entered, which has no result and no request. -/
theorem otherExceptionIsForwarded : Obligations.OtherExceptionIsForwarded := by
  unfold Obligations.OtherExceptionIsForwarded
  intro s hb hi hc
  have hstep : step s = .next s.enter.forwardException := (step_dispatch hb).trans (trapEntry_exception hi hc)
  obtain ⟨hx, hpc, hres, hmem, -, hresult, hport, -, -, hcall⟩ := forwardException_fields s.enter
  exact ⟨_, hstep, ⟨_, hcall⟩, hresult, hport, hres, hx, hpc, hmem⟩

/-- A code with an entry calls the entry's handler, or the default one where the entry is reserved (R114, R115). -/
theorem interruptCall_of_entry {p : Platform} {code : Nat} {e : VectorEntry} (h : p.vt[code]? = some e) :
    interruptCall p code = if e.reserved then .defaultHandler else .vectorHandler e.handler := by
  simp [interruptCall, h]

/-- A code out of the table's range calls the default handler (R116). -/
theorem interruptCall_of_length_le {p : Platform} {code : Nat} (h : p.vt.length ≤ code) :
    interruptCall p code = .defaultHandler := by
  simp [interruptCall, List.getElem?_eq_none h]

/-- Settles O49: the interrupt is forwarded with the call of `interruptCall`, by the entry of its code or for want of
one. -/
theorem interruptSelectsItsHandler : Obligations.InterruptSelectsItsHandler := by
  unfold Obligations.InterruptSelectsItsHandler
  intro s hb hi
  have hstep : step s = .next s.enter.forwardInterrupt := (step_dispatch hb).trans (trapEntry_interrupt hi)
  have hcall : s.enter.forwardInterrupt.boundary = .forward (interruptCall s.plat s.cause.code) := rfl
  refine ⟨_, hstep, fun e he hreserved => ?_, fun e he hreserved => ?_, fun hcode => ?_⟩
  · rw [hcall, interruptCall_of_entry he, hreserved]; rfl
  · rw [hcall, interruptCall_of_entry he, hreserved]; rfl
  · rw [hcall, interruptCall_of_length_le hcode]

end Sys2Proof.Machine

/-! ## Reset (spec/70_reset_and_hazards.md)

0 is what `RES` holds where there is no reservation (R77 of spec/41_lr_sc.md). SC compares its address with it as with any
other value, and only LR sets `RES` to anything but 0. -/

namespace Sys2Proof.Machine

open Sys2Proof

/-- An instruction other than LR sets `RES` to no value but 0: SC clears or keeps it, an AMO keeps it. -/
theorem resAfter_eq_zero {i : Instr} {s : State} (hres : s.res = 0#32) (hi : i.op ≠ .lr) : resAfter i s = 0#32 := by
  cases i
  case lr rd rs1 => exact absurd rfl hi
  case sc rd rs1 rs2 => simp [resAfter, hres]
  all_goals exact hres

/-- Settles O59: against `RES` 0, an SC to another address is a mismatch and an SC to address 0 a match; `RES` after an
instruction is `resAfter`'s. -/
theorem resetHoldsNoReservation : Obligations.ResetHoldsNoReservation := by
  unfold Obligations.ResetHoldsNoReservation
  refine ⟨rfl, fun s hres => ⟨fun rd rs1 rs2 hne => ?_, fun rd rs1 rs2 hzero hadm => ?_, fun i t hi h => ?_⟩⟩
  · rw [← hres] at hne
    exact ⟨_, exec_sc_of_mismatch hne rd rs2, by simp⟩
  · rw [← hres] at hzero hadm
    exact ⟨_, exec_sc_of_match hzero hadm rd rs2, by simp⟩
  · exact (exec_next_res h).trans (resAfter_eq_zero hres hi)

end Sys2Proof.Machine

/-! ## Encodings (spec/30_encoding.md)

A word is the concatenation of its seven fields. The decoder looks at the opcode, the subcode and the register fields; a
mask made of whole fields keeps those fields and drops the others. -/

namespace Sys2Proof

/-! ### A word and its fields -/

/-- A word is its seven fields in a row, in the order of R50. -/
theorem append_slices (w : IWord) :
    w.extractLsb' 27 5 ++ w.extractLsb' 25 2 ++ w.extractLsb' 20 5 ++ w.extractLsb' 15 5 ++ w.extractLsb' 12 3 ++
      w.extractLsb' 7 5 ++ w.extractLsb' 0 7 = w := by
  iterate 6 rw [BitVec.extractLsb'_append_extractLsb'_eq_extractLsb']
  · exact BitVec.extractLsb'_eq_self
  all_goals rfl

/-- Two words are equal when their seven fields are. -/
theorem eq_of_slices {w v : IWord} (h27 : w.extractLsb' 27 5 = v.extractLsb' 27 5)
    (h25 : w.extractLsb' 25 2 = v.extractLsb' 25 2) (h20 : w.extractLsb' 20 5 = v.extractLsb' 20 5)
    (h15 : w.extractLsb' 15 5 = v.extractLsb' 15 5) (h12 : w.extractLsb' 12 3 = v.extractLsb' 12 3)
    (h7 : w.extractLsb' 7 5 = v.extractLsb' 7 5) (h0 : w.extractLsb' 0 7 = v.extractLsb' 0 7) : w = v := by
  rw [← append_slices w, ← append_slices v, h27, h25, h20, h15, h12, h7, h0]

/-- Words that agree under a mask agree on every field the mask keeps whole. -/
theorem slice_eq_of_mask_eq {w v m : IWord} (h : w &&& m = v &&& m) {lo len : Nat}
    (hm : m.extractLsb' lo len = BitVec.allOnes len) : w.extractLsb' lo len = v.extractLsb' lo len := by
  have hs := congrArg (BitVec.extractLsb' lo len) h
  simpa only [BitVec.extractLsb'_and, hm, BitVec.and_allOnes] using hs

/-- Words with the same opcode and subcode agree under the mask of R55. -/
theorem mask_eq_of_opcode_subcode {w v : IWord} (h0 : w.extractLsb' 0 7 = v.extractLsb' 0 7)
    (h27 : w.extractLsb' 27 5 = v.extractLsb' 27 5) : w &&& 0xF800007F#32 = v &&& 0xF800007F#32 := by
  apply eq_of_slices <;> simp [BitVec.extractLsb'_and, h0, h27]

/-! ### The operation -/

/-- A subcode selects the one operation whose table entry it is. -/
theorem opOfSubcode_eq_some_iff {f : BitVec 5} {o : Op} : opOfSubcode f = some o ↔ funct5 o = f := by
  constructor
  · intro h
    simpa using List.find?_some h
  · rintro rfl
    cases o <;> rfl

/-- The subcodes that select nothing are the 21 of R57. -/
theorem opOfSubcode_eq_none_iff (f : BitVec 5) : opOfSubcode f = none ↔ f ∈ Machine.unallocated := by
  revert f
  decide

@[simp] theorem build_op (o : Op) (rd rs1 rs2 : RegIdx) : (Instr.build o rd rs1 rs2).op = o := by cases o <;> rfl
@[simp] theorem build_rd (o : Op) (rd rs1 rs2 : RegIdx) : (Instr.build o rd rs1 rs2).rd = rd := by cases o <;> rfl
@[simp] theorem build_rs1 (o : Op) (rd rs1 rs2 : RegIdx) : (Instr.build o rd rs1 rs2).rs1 = rs1 := by cases o <;> rfl

/-- An instruction is made of its operation and its registers. -/
theorem build_self {i : Instr} {r : RegIdx} (h : ∀ r', i.rs2? = some r' → r = r') :
    Instr.build i.op i.rd i.rs1 r = i := by
  cases i
  case lr rd rs1 => rfl
  all_goals obtain rfl := h _ rfl; rfl

/-! ### The decoder -/

/-- An atomic word whose subcode selects nothing is refused by its subcode. -/
theorem decodeWord_of_unallocated {w : IWord} (ha : isAtomic w = true) (ho : opOfSubcode (w.extractLsb' 27 5) = none) :
    decodeWord w = .error .unknownSubcode := by
  simp [decodeWord, ha, decodeFields, ho]

/-- An atomic word whose subcode selects an operation is that operation on the register fields. -/
theorem decodeWord_of_op {w : IWord} {o : Op} (ha : isAtomic w = true)
    (ho : opOfSubcode (w.extractLsb' 27 5) = some o) :
    decodeWord w = .ok (Instr.build o (regField w 7) (regField w 15) (regField w 20)) := by
  simp [decodeWord, ha, decodeFields, ho]

/-- A word decodes to an instruction when it is atomic, has the subcode of its operation, and has its registers in the
register fields. -/
theorem decodeWord_eq_ok_iff {w : IWord} {i : Instr} :
    decodeWord w = .ok i ↔ isAtomic w = true ∧ funct5 i.op = w.extractLsb' 27 5 ∧
      Instr.build i.op (regField w 7) (regField w 15) (regField w 20) = i := by
  constructor
  · intro h
    cases ha : isAtomic w with
    | false => simp [decodeWord_of_not_atomic ha] at h
    | true =>
      cases ho : opOfSubcode (w.extractLsb' 27 5) with
      | none => simp [decodeWord_of_unallocated ha ho] at h
      | some o =>
        obtain rfl := Except.ok.inj ((decodeWord_of_op ha ho).symm.trans h)
        simp [opOfSubcode_eq_some_iff.mp ho]
  · rintro ⟨ha, hs, hi⟩
    rw [decodeWord_of_op ha (opOfSubcode_eq_some_iff.mpr hs), hi]

/-- Settles O5: the fields of the encoding are those of the instruction, so the decoder builds it again. -/
theorem decodeOfEncodeIsTheInstruction : Obligations.DecodeOfEncodeIsTheInstruction := by
  unfold Obligations.DecodeOfEncodeIsTheInstruction
  intro i g
  obtain ⟨ha, hs, hrd, hrs1, hrs2⟩ := Laws.EncodedFields.all i g
  refine decodeWord_eq_ok_iff.mpr ⟨ha, hs.symm, ?_⟩
  calc Instr.build i.op (regField (encodeWith g i) 7) (regField (encodeWith g i) 15) (regField (encodeWith g i) 20)
    _ = Instr.build i.op i.rd i.rs1 (regField (encodeWith g i) 20) := congrArg₂ (Instr.build i.op · · _) hrd hrs1
    _ = i := build_self hrs2

/-- The subcode and the opcode of the table's matching word are those of its operation. -/
theorem matchWord_slices (o : Op) : (Machine.matchWord o).extractLsb' 27 5 = funct5 o ∧
    (Machine.matchWord o).extractLsb' 0 7 = opcAmo ∧ Machine.matchWord o &&& 0xF800007F#32 = Machine.matchWord o := by
  cases o <;> decide

/-- A masked word is the matching word of an operation when the word is atomic with the operation's subcode. -/
theorem mask_eq_matchWord_iff (w : IWord) (o : Op) :
    w &&& 0xF800007F#32 = Machine.matchWord o ↔ isAtomic w = true ∧ funct5 o = w.extractLsb' 27 5 := by
  obtain ⟨hsub, hopc, hmask⟩ := matchWord_slices o
  rw [isAtomic_iff_opcodeOf]
  constructor
  · intro h
    have hm : w &&& 0xF800007F#32 = Machine.matchWord o &&& 0xF800007F#32 := h.trans hmask.symm
    exact ⟨(slice_eq_of_mask_eq hm (by decide)).trans hopc, ((slice_eq_of_mask_eq hm (by decide)).trans hsub).symm⟩
  · rintro ⟨ha, hs⟩
    rw [← hmask]
    exact mask_eq_of_opcode_subcode (ha.trans hopc.symm) (hs.symm.trans hsub.symm)

/-- Settles O4: both sides say that the word is atomic with the operation's subcode. -/
theorem maskedWordSelectsTheOperation : Obligations.MaskedWordSelectsTheOperation := by
  unfold Obligations.MaskedWordSelectsTheOperation
  intro w o
  have hdec : w &&& 0xF800007F#32 = Machine.matchWord o →
      decodeWord w = .ok (Instr.build o (regField w 7) (regField w 15) (regField w 20)) := fun h =>
    have ⟨ha, hs⟩ := (mask_eq_matchWord_iff w o).mp h
    decodeWord_of_op ha (opOfSubcode_eq_some_iff.mpr hs)
  refine ⟨⟨fun h => ⟨_, hdec h, build_op _ _ _ _⟩, ?_⟩, hdec⟩
  rintro ⟨i, hi, rfl⟩
  obtain ⟨ha, hs, -⟩ := decodeWord_eq_ok_iff.mp hi
  exact (mask_eq_matchWord_iff w i.op).mpr ⟨ha, hs⟩

/-- The ignored bits of a word. -/
def ignoredOf (w : IWord) : Ignored := ⟨w.extractLsb' 12 3, w.extractLsb' 25 2, w.extractLsb' 20 5⟩

/-- With the ignored bits of `w`, an instruction built from `w`'s register fields has `w`'s bits 24:20. -/
theorem rs2Bits_ignoredOf (w : IWord) (o : Op) :
    rs2Bits (ignoredOf w) (Instr.build o (regField w 7) (regField w 15) (regField w 20)) = w.extractLsb' 20 5 := by
  cases o <;> rfl

/-- Settles O6: with the word's own ignored bits, the encoding of what it decodes to has the word's seven fields. -/
theorem decodedWordIsAnEncoding : Obligations.DecodedWordIsAnEncoding := by
  unfold Obligations.DecodedWordIsAnEncoding
  intro w i h
  obtain ⟨ha, hs, hi⟩ := decodeWord_eq_ok_iff.mp h
  have hopc : w.extractLsb' 0 7 = opcAmo := (isAtomic_iff_opcodeOf w).mp ha
  have hrs2 : rs2Bits (ignoredOf w) i = w.extractLsb' 20 5 := hi ▸ rs2Bits_ignoredOf w i.op
  have hrs1 : regBits i.rs1 = w.extractLsb' 15 5 := congrArg regBits (hi ▸ build_rs1 _ _ _ _ : i.rs1 = regField w 15)
  have hrd : regBits i.rd = w.extractLsb' 7 5 := congrArg regBits (hi ▸ build_rd _ _ _ _ : i.rd = regField w 7)
  refine ⟨ignoredOf w, ?_⟩
  rw [encodeWith, layout, hs, hrs2, hrs1, hrd, ← hopc]
  exact append_slices w

/-! ### Ignored bits and classification -/

/-- The decoder looks at the opcode, the subcode and the three register fields only. -/
theorem decodeWord_congr {w v : IWord} (h0 : opcodeOf w = opcodeOf v) (h : decodeFields w = decodeFields v) :
    isAtomic w = isAtomic v ∧ decodeWord w = decodeWord v := by
  have ha : isAtomic w = isAtomic v := by rw [isAtomic, isAtomic, h0]
  exact ⟨ha, by rw [decodeWord, decodeWord, ha, h]⟩

/-- Settles O7: the first mask keeps the opcode, the subcode and the register fields; under the second two LR words keep
all of these but `rs2`, which LR drops. -/
theorem ignoredBitsChangeNothing : Obligations.IgnoredBitsChangeNothing := by
  unfold Obligations.IgnoredBitsChangeNothing
  refine ⟨fun w v h => ?_, fun w v hlr h => ?_⟩
  · refine decodeWord_congr (slice_eq_of_mask_eq h (by decide)) ?_
    simp only [decodeFields, regField, slice_eq_of_mask_eq h (lo := 7) (len := 5) (by decide),
      slice_eq_of_mask_eq h (lo := 15) (len := 5) (by decide), slice_eq_of_mask_eq h (lo := 20) (len := 5) (by decide),
      slice_eq_of_mask_eq h (lo := 27) (len := 5) (by decide)]
  · have hmask : w &&& 0xF800007F#32 = v &&& 0xF800007F#32 :=
      mask_eq_of_opcode_subcode (slice_eq_of_mask_eq h (by decide)) (slice_eq_of_mask_eq h (by decide))
    have decodes : ∀ u : IWord, u &&& 0xF800007F#32 = 0x1000002F#32 →
        decodeWord u = .ok (.lr (regField u 7) (regField u 15)) := fun u hu => (maskedWordSelectsTheOperation u .lr).2 hu
    rw [decodes w hlr, decodes v (hmask.symm.trans hlr), regField, regField,
      slice_eq_of_mask_eq h (lo := 7) (len := 5) (by decide), slice_eq_of_mask_eq h (lo := 15) (len := 5) (by decide)]
    rfl

/-- Settles O8: the decoder's own three cases, the opcode in mask form and the subcode in list form. -/
theorem everyWordHasOneClassification : Obligations.EveryWordHasOneClassification := by
  unfold Obligations.EveryWordHasOneClassification
  intro w
  have hsub := opOfSubcode_eq_none_iff (w.extractLsb' 27 5)
  rw [ne_eq, ← isAtomic_iff_mask]
  cases ha : isAtomic w with
  | false => simp [decodeWord_of_not_atomic ha]
  | true =>
    cases ho : opOfSubcode (w.extractLsb' 27 5) with
    | none => simp [decodeWord_of_unallocated ha ho, hsub.mp ho]
    | some o => simp [decodeWord_of_op ha ho, ← hsub, ho]

/-- Settles O3: the words are fixed, and the decoder computes. -/
theorem wordsFromTheTableDecode : Obligations.WordsFromTheTableDecode := by
  unfold Obligations.WordsFromTheTableDecode
  decide

/-! ### Bytes -/

/-- The four bytes of a word, most significant first. -/
theorem append_bytes (w : Word) : byteOf w 3 ++ byteOf w 2 ++ byteOf w 1 ++ byteOf w 0 = w := by
  unfold byteOf
  iterate 3 rw [BitVec.extractLsb'_append_extractLsb'_eq_extractLsb']
  · exact BitVec.extractLsb'_eq_self
  all_goals rfl

/-- In either byte order a word has four bytes, and they make the word. -/
theorem wordToBytes_eq (e : Endian) (w : Word) :
    ∃ b0 b1 b2 b3, wordToBytes e w = [b0, b1, b2, b3] ∧ bytesToWord e b0 b1 b2 b3 = w := by
  cases e <;> exact ⟨_, _, _, _, rfl, append_bytes w⟩

/-- Settles O9: the four bytes in front make the word, which is what the decoder is given. -/
theorem byteDecoderReadsTheWord : Obligations.ByteDecoderReadsTheWord := by
  unfold Obligations.ByteDecoderReadsTheWord
  intro e w rest
  obtain ⟨b0, b1, b2, b3, hbytes, hword⟩ := wordToBytes_eq e w
  rw [hbytes]
  exact ⟨fun i h => by simp [decodeBytes, hword, h], fun r h => by simp [decodeBytes, hword, h]⟩

namespace Machine

/-- Settles O11: a subcode that is no operation's selects nothing, so the word is refused and only the result is set. -/
theorem unknownSubcodeChangesNothing : Obligations.UnknownSubcodeChangesNothing := by
  unfold Obligations.UnknownSubcodeChangesNothing
  refine ⟨fun w s ha hne => ?_, fun o => by cases o <;> decide⟩
  have hnone : opOfSubcode (w.extractLsb' 27 5) = none :=
    Option.eq_none_iff_forall_ne_some.mpr fun o ho => hne o (opOfSubcode_eq_some_iff.mp ho)
  exact ⟨_, unitStep_of_error (decodeWord_of_unallocated ha hnone) s, rfl, rfl, rfl, rfl, rfl, rfl⟩

end Machine

end Sys2Proof

/-! ## What an instruction and a trap can do (spec/40_decode_dispatch.md, spec/60_exceptions.md)

An instruction completes with `execDone`, or stops at the first request refused. A trap resumes with `trapDone`, forwards
a word the decoder refused, forwards any other cause, or stops at the first request of its own that is refused. -/

namespace Sys2Proof.Machine

open Sys2Proof

/-! ### Instructions -/

@[simp] theorem execDone_pc (i : Instr) (s : State) : (execDone i s).pc = s.pc := rfl
@[simp] theorem execDone_cause (i : Instr) (s : State) : (execDone i s).cause = s.cause := rfl
@[simp] theorem execDone_boundary (i : Instr) (s : State) : (execDone i s).boundary = s.boundary := rfl
@[simp] theorem execDone_host (i : Instr) (s : State) : (execDone i s).host = s.host := rfl
@[simp] theorem execDone_plat (i : Instr) (s : State) : (execDone i s).plat = s.plat := rfl

/-- An instruction stops with the fault of the first request of its table that the port refuses. -/
theorem exec_of_refused {i : Instr} {s : State} {f : Fault} (h : firstRefusal s.plat (dataRequests i s) = some f) :
    exec i s = .fault f := by
  obtain ⟨t, -, hn, -⟩ | ⟨g, hg, hf⟩ := exec_outcome i s
  · cases h.symm.trans hn
  · rw [hg, Option.some.inj (hf.symm.trans h)]

/-- An instruction completes with the state of its tables, or stops at the first request refused. -/
theorem exec_cases (i : Instr) (s : State) :
    (firstRefusal s.plat (dataRequests i s) = none ∧ exec i s = .next (execDone i s)) ∨
      ∃ f, firstRefusal s.plat (dataRequests i s) = some f ∧ exec i s = .fault f := by
  cases h : firstRefusal s.plat (dataRequests i s) with
  | none => exact .inl ⟨rfl, exec_of_admitted h⟩
  | some f => exact .inr ⟨f, rfl, exec_of_refused h⟩

/-- An instruction that stops had a request refused, with that fault. -/
theorem refused_of_exec_fault {i : Instr} {s : State} {f : Fault} (h : exec i s = .fault f) :
    firstRefusal s.plat (dataRequests i s) = some f := by
  obtain ⟨-, e⟩ | ⟨g, hg, e⟩ := exec_cases i s
  · cases h.symm.trans e
  · rw [hg, Host.Outcome.fault.inj (h.symm.trans e)]

/-- A change of the state that keeps the requests and the platform, and that the tables carry over, carries the outcome
over. -/
theorem exec_map {i i' : Instr} {s : State} {g : State → State} (hreq : dataRequests i' (g s) = dataRequests i s)
    (hplat : (g s).plat = s.plat) (hdone : execDone i' (g s) = g (execDone i s)) :
    (∀ t, exec i s = .next t → exec i' (g s) = .next (g t)) ∧
      (∀ f, exec i s = .fault f → exec i' (g s) = .fault f) := by
  refine ⟨fun t h => ?_, fun f h => exec_of_refused ?_⟩
  · rw [exec_next_eq h, ← hdone]
    exact exec_of_admitted (by rw [hplat, hreq]; exact admitted_of_exec_next h)
  · rw [hplat, hreq]
    exact refused_of_exec_fault h

/-- What a completing instruction leaves alone. -/
theorem frame_of_exec_next {i : Instr} {s t : State} (h : exec i s = .next t) : Frame i.rd s t := by
  obtain rfl := exec_next_eq h
  exact ⟨fun r hr => by simp [hr], rfl, rfl, rfl, rfl, rfl, rfl⟩

/-- Requests keep the canonical form of memory. -/
theorem wf_afterRequests (e : Endian) (l : List PortRequest) {m : Memory} (h : m.wf = true) :
    (l.foldl (Memory.afterRequest e) m).wf = true := by
  induction l generalizing m with
  | nil => exact h
  | cons r l ih =>
    refine ih ?_
    cases r with
    | read a => exact h
    | write a v => exact wf_storeWord h e a v

/-- A completing instruction keeps the canonical form of memory. -/
theorem wf_of_exec_next {i : Instr} {s t : State} (h : exec i s = .next t) (hw : s.mem.wf = true) : t.mem.wf = true := by
  rw [exec_next_eq h]
  exact wf_afterRequests _ _ hw

/-- An instruction makes two requests at most. -/
theorem dataRequests_length_le (i : Instr) (s : State) : (dataRequests i s).length ≤ 2 := by
  cases i
  case lr rd rs1 => exact Nat.le_succ 1
  case sc rd rs1 rs2 => by_cases hm : s.reg rs1 = s.res <;> simp [dataRequests, hm]
  all_goals exact Nat.le_refl 2

/-- An instruction that changes `RES` is an LR, or an SC on a match. -/
theorem lr_or_sc_of_resAfter_ne {i : Instr} {s : State} (h : resAfter i s ≠ s.res) :
    (∃ rd rs1, i = .lr rd rs1 ∧ resAfter i s = s.reg rs1) ∨
      ∃ rd rs1 rs2, i = .sc rd rs1 rs2 ∧ s.reg rs1 = s.res ∧ resAfter i s = 0#32 := by
  cases i
  case lr rd rs1 => exact .inl ⟨rd, rs1, rfl, rfl⟩
  case sc rd rs1 rs2 =>
    by_cases hm : s.reg rs1 = s.res
    · exact .inr ⟨rd, rs1, rs2, rfl, hm, if_pos hm⟩
    · exact absurd (if_neg hm) h
  all_goals exact absurd rfl h

/-! ### The states a trap ends in -/

@[simp] theorem valueWritten_presented (i : Instr) (u : State) : valueWritten i (presented u) = valueWritten i u := by
  cases i <;> rfl
@[simp] theorem resAfter_presented (i : Instr) (u : State) : resAfter i (presented u) = resAfter i u := by
  cases i <;> rfl

/-- The state of a trap whose instruction completed. -/
def trapDone (i : Instr) (u : State) : State := (execDone i (presented u)).resume

@[simp] theorem trapDone_pc (i : Instr) (u : State) : (trapDone i u).pc = u.pc + 4 := rfl
@[simp] theorem trapDone_res (i : Instr) (u : State) : (trapDone i u).res = resAfter i u := by simp [trapDone]
@[simp] theorem trapDone_cause (i : Instr) (u : State) : (trapDone i u).cause = u.cause := rfl
@[simp] theorem trapDone_boundary (i : Instr) (u : State) : (trapDone i u).boundary = .resume := rfl
@[simp] theorem trapDone_result (i : Instr) (u : State) : (trapDone i u).result = some .handled := rfl
@[simp] theorem trapDone_port (i : Instr) (u : State) : (trapDone i u).port = .read u.pc :: dataRequests i u := by
  simp [trapDone]
@[simp] theorem trapDone_plat (i : Instr) (u : State) : (trapDone i u).plat = u.plat := rfl

/-- A trap whose instruction completed keeps the canonical form of memory. -/
theorem wf_trapDone (i : Instr) {u : State} (hw : u.mem.wf = true) : (trapDone i u).mem.wf = true :=
  wf_afterRequests _ _ hw

/-- The state of a trap on a word the decoder refused. -/
def trapRefused (r : UnhandledReason) (u : State) : State := ((presented u).setResult (.unhandled r)).forwardException

@[simp] theorem trapRefused_x (r : UnhandledReason) (u : State) : (trapRefused r u).x = u.x := rfl
@[simp] theorem trapRefused_pc (r : UnhandledReason) (u : State) : (trapRefused r u).pc = u.pc := rfl
@[simp] theorem trapRefused_res (r : UnhandledReason) (u : State) : (trapRefused r u).res = u.res := rfl
@[simp] theorem trapRefused_mem (r : UnhandledReason) (u : State) : (trapRefused r u).mem = u.mem := rfl
@[simp] theorem trapRefused_boundary (r : UnhandledReason) (u : State) :
    (trapRefused r u).boundary = .forward (.exceptionHandler u.ctxView) := rfl
@[simp] theorem trapRefused_result (r : UnhandledReason) (u : State) :
    (trapRefused r u).result = some (.unhandled r) := rfl
@[simp] theorem trapRefused_port (r : UnhandledReason) (u : State) : (trapRefused r u).port = [.read u.pc] := rfl
@[simp] theorem trapRefused_plat (r : UnhandledReason) (u : State) : (trapRefused r u).plat = u.plat := rfl

/-- The trap makes a request that the port refuses, `f` being the fault of the first one: the fetch, or else a request of
the instruction fetched. -/
def StopsWith (u : State) (f : Fault) : Prop :=
  u.cause = illegalCause u.plat ∧
    (fetchRefusal u.plat u.pc = some f ∨
      fetchRefusal u.plat u.pc = none ∧
        ∃ i, decodeWord (u.wordAt u.pc) = .ok i ∧ firstRefusal u.plat (dataRequests i u) = some f)

/-! ### Traps -/

/-- An admitted fetch on entry into the boundary. -/
theorem fetch_enter {u : State} (hf : fetchRefusal u.plat u.pc = none) :
    u.enter.fetch = .ok (u.wordAt u.pc, presented u) := by
  obtain ⟨-, h⟩ | ⟨f, h, -⟩ := fetch_cases u.enter
  · exact h
  · cases hf.symm.trans h

/-- A trap on a word that decodes runs the instruction and advances. -/
theorem trapEntry_of_ok {u : State} {i : Instr} (hc : u.cause = illegalCause u.plat)
    (hf : fetchRefusal u.plat u.pc = none) (hd : decodeWord (u.wordAt u.pc) = .ok i) :
    trapEntry u = resumeAfter u.pc (exec i (presented u)) := by
  obtain ⟨hnext, hfault, -⟩ := trapEntry_emulate hc hf
  obtain ⟨-, h⟩ | ⟨f, -, h⟩ := exec_cases i (presented u)
  · rw [hnext _ ((unitStep_of_ok hd _).trans h), h, afterUnit_handled (execDone_result _ _)]
    rfl
  · rw [hfault _ ((unitStep_of_ok hd _).trans h), h]
    rfl

/-- A trap on a word the decoder refuses forwards it. -/
theorem trapEntry_of_error {u : State} {r : UnhandledReason} (hc : u.cause = illegalCause u.plat)
    (hf : fetchRefusal u.plat u.pc = none) (hd : decodeWord (u.wordAt u.pc) = .error r) :
    trapEntry u = .next (trapRefused r u) := by
  obtain ⟨hnext, -, -⟩ := trapEntry_emulate hc hf
  rw [hnext _ (unitStep_of_error hd _), afterUnit_unhandled (setResult_result _ _), trapRefused]

/-- A trap with a refused request stops with its fault. -/
theorem trapEntry_of_stopsWith {u : State} {f : Fault} (h : StopsWith u f) : trapEntry u = .fault f := by
  obtain ⟨hc, hf | ⟨hf, i, hd, hr⟩⟩ := h
  · exact trapEntry_fetchFault hc hf
  · rw [← dataRequests_presented] at hr
    rw [trapEntry_of_ok hc hf hd, exec_of_refused (s := presented u) hr]
    rfl

/-- An interrupt calls no exception handler. -/
theorem interruptCall_ne_exceptionHandler (p : Platform) (code : Nat) (view : List (FrameItem × Word)) :
    interruptCall p code ≠ .exceptionHandler view := by
  unfold interruptCall
  split
  · simp
  · split <;> simp

/-- Everything a trap can do. -/
theorem trapEntry_cases (u : State) :
    (∃ i, u.cause = illegalCause u.plat ∧ fetchRefusal u.plat u.pc = none ∧ decodeWord (u.wordAt u.pc) = .ok i ∧
        trapEntry u = .next (trapDone i u)) ∨
      (∃ r, u.cause = illegalCause u.plat ∧ fetchRefusal u.plat u.pc = none ∧ decodeWord (u.wordAt u.pc) = .error r ∧
        trapEntry u = .next (trapRefused r u)) ∨
      (∃ c, u.cause ≠ illegalCause u.plat ∧ (∀ view, c = .exceptionHandler view → view = u.ctxView) ∧
        trapEntry u = .next (u.enter.forward c)) ∨
      ∃ f, StopsWith u f ∧ trapEntry u = .fault f := by
  obtain ⟨hi, e⟩ | ⟨-, hcode, e⟩ | ⟨hc, f, hf, e⟩ | ⟨hc, hf⟩ := trapEntry_paths u
  · refine .inr (.inr (.inl ⟨_, fun h => ?_, fun view h => ?_, e⟩))
    · simp [h, illegalCause] at hi
    · exact absurd h (interruptCall_ne_exceptionHandler _ _ view)
  · refine .inr (.inr (.inl ⟨_, fun h => hcode (congrArg Cause.code h), fun view h => ?_, e⟩))
    exact (Call.exceptionHandler.inj h).symm
  · exact .inr (.inr (.inr ⟨f, ⟨hc, .inl hf⟩, e⟩))
  · cases hd : decodeWord (u.wordAt u.pc) with
    | error r => exact .inr (.inl ⟨r, hc, hf, rfl, trapEntry_of_error hc hf hd⟩)
    | ok i =>
      cases hr : firstRefusal u.plat (dataRequests i u) with
      | none =>
        rw [← dataRequests_presented] at hr
        refine .inl ⟨i, hc, hf, rfl, ?_⟩
        rw [trapEntry_of_ok hc hf hd, exec_of_admitted (s := presented u) hr]
        rfl
      | some f =>
        have hstop : StopsWith u f := ⟨hc, .inr ⟨hf, i, hd, hr⟩⟩
        exact .inr (.inr (.inr ⟨f, hstop, trapEntry_of_stopsWith hstop⟩))

/-- The next states a trap can have. -/
theorem trapEntry_next_cases {u t : State} (h : trapEntry u = .next t) :
    (∃ i, u.cause = illegalCause u.plat ∧ fetchRefusal u.plat u.pc = none ∧ decodeWord (u.wordAt u.pc) = .ok i ∧
        t = trapDone i u) ∨
      (∃ r, u.cause = illegalCause u.plat ∧ fetchRefusal u.plat u.pc = none ∧ decodeWord (u.wordAt u.pc) = .error r ∧
        t = trapRefused r u) ∨
      ∃ c, u.cause ≠ illegalCause u.plat ∧ (∀ view, c = .exceptionHandler view → view = u.ctxView) ∧
        t = u.enter.forward c := by
  obtain ⟨i, hc, hf, hd, e⟩ | ⟨r, hc, hf, hd, e⟩ | ⟨c, hc, hv, e⟩ | ⟨f, -, e⟩ := trapEntry_cases u
  · exact .inl ⟨i, hc, hf, hd, Host.Outcome.next.inj (h.symm.trans e)⟩
  · exact .inr (.inl ⟨r, hc, hf, hd, Host.Outcome.next.inj (h.symm.trans e)⟩)
  · exact .inr (.inr ⟨c, hc, hv, Host.Outcome.next.inj (h.symm.trans e)⟩)
  · cases h.symm.trans e

/-- The next states a step can have: the same, or the next state of the next trap. -/
theorem step_next_cases {s t : State} (h : step s = .next t) :
    (s.nextTrap = none ∧ t = s) ∨ ∃ u, s.nextTrap = some u ∧ trapEntry u = .next t := by
  obtain ⟨hn, e⟩ | ⟨u, hu, e⟩ := step_cases s
  · exact .inl ⟨hn, Host.Outcome.next.inj (h.symm.trans e)⟩
  · exact .inr ⟨u, hu, e.symm.trans h⟩

/-! ### What every step keeps -/

/-- Settles O20: of the next states of a trap only one whose instruction completed has another `RES`, and that
instruction is an LR or an SC on a match. -/
theorem stepWritesResOnlyByLrOrSc : Obligations.StepWritesResOnlyByLrOrSc := by
  unfold Obligations.StepWritesResOnlyByLrOrSc
  intro s t h hne
  obtain ⟨-, rfl⟩ | ⟨u, hu, htrap⟩ := step_next_cases h
  · exact absurd rfl hne
  · obtain ⟨hres, -, -⟩ := nextTrap_keeps hu
    rw [← hres] at hne
    obtain ⟨i, -, hf, hd, rfl⟩ | ⟨r, -, -, -, rfl⟩ | ⟨c, -, -, rfl⟩ := trapEntry_next_cases htrap
    · refine ⟨u, presented u, u.wordAt u.pc, hu, fetch_enter hf, ?_⟩
      rw [trapDone_res] at hne ⊢
      obtain ⟨rd, rs1, rfl, hlr⟩ | ⟨rd, rs1, rs2, rfl, hm, hsc⟩ := lr_or_sc_of_resAfter_ne hne
      · exact .inl ⟨rd, rs1, hd, hlr⟩
      · exact .inr ⟨rd, rs1, rs2, hd, hm.trans hres, hsc⟩
    · exact absurd rfl hne
    · exact absurd rfl hne

/-- The next state of a trap that is met with memory in its canonical form meets the invariant. -/
theorem inv_of_trapEntry_next {u t : State} (hw : u.mem.wf = true) (h : trapEntry u = .next t) : t.Inv := by
  obtain ⟨i, hc, -, -, rfl⟩ | ⟨r, -, -, -, rfl⟩ | ⟨c, -, -, rfl⟩ := trapEntry_next_cases h
  · refine ⟨wf_trapDone i hw, by simp, fun _ => hc, ?_⟩
    rw [trapDone_port, List.length_cons]
    exact Nat.succ_le_succ (dataRequests_length_le i u)
  · exact ⟨hw, by simp, by simp, by simp⟩
  · exact ⟨hw, by simp, by simp, by simp⟩

/-- Settles O55: a step that waits changes nothing, and any other is a trap, met with memory in its canonical form. -/
theorem stepKeepsTheInvariant : Obligations.StepKeepsTheInvariant := by
  unfold Obligations.StepKeepsTheInvariant
  intro s t hinv h
  obtain ⟨-, rfl⟩ | ⟨u, hu, htrap⟩ := step_next_cases h
  · exact hinv
  · obtain ⟨-, -, hwf⟩ := nextTrap_keeps hu
    exact inv_of_trapEntry_next (hwf hinv.memory) htrap

/-- Settles O54: nothing is listed, the boundary waits and no output stands. -/
theorem resetMeetsTheInvariant : Obligations.ResetMeetsTheInvariant := by
  unfold Obligations.ResetMeetsTheInvariant
  have hinv : State.reset.Inv := ⟨reset_memory_wf, by decide, by decide, by decide⟩
  exact ⟨hinv, rfl, rfl, rfl⟩

/-- Settles O56: every next state of a trap has the trap's platform, and no case of a trap is a refusal. -/
theorem stepKeepsPlatformNeverRefuses : Obligations.StepKeepsPlatformNeverRefuses := by
  unfold Obligations.StepKeepsPlatformNeverRefuses
  refine ⟨fun s t h => ?_, fun s r h => ?_⟩
  · obtain ⟨-, rfl⟩ | ⟨u, hu, htrap⟩ := step_next_cases h
    · rfl
    · obtain ⟨-, hplat, -⟩ := nextTrap_keeps hu
      rw [← hplat]
      obtain ⟨i, -, -, -, rfl⟩ | ⟨r, -, -, -, rfl⟩ | ⟨c, -, -, rfl⟩ := trapEntry_next_cases htrap <;> rfl
  · obtain ⟨-, e⟩ | ⟨u, -, e⟩ := step_cases s
    · cases h.symm.trans e
    · have htrap : trapEntry u = .refused r := e.symm.trans h
      obtain ⟨i, -, -, -, e⟩ | ⟨r, -, -, -, e⟩ | ⟨c, -, -, e⟩ | ⟨f, -, e⟩ := trapEntry_cases u <;>
        cases htrap.symm.trans e

/-- A trap stops with `f` exactly where the first request refused has that fault. -/
theorem trapEntry_fault_iff (u : State) (f : Fault) : trapEntry u = .fault f ↔ StopsWith u f := by
  refine ⟨fun h => ?_, trapEntry_of_stopsWith⟩
  obtain ⟨i, -, -, -, e⟩ | ⟨r, -, -, -, e⟩ | ⟨c, -, -, e⟩ | ⟨g, hg, e⟩ := trapEntry_cases u
  · cases h.symm.trans e
  · cases h.symm.trans e
  · cases h.symm.trans e
  · rwa [Host.Outcome.fault.inj (h.symm.trans e)]

/-- Settles O57: a step that waits does not stop, and any other stops as its trap does. -/
theorem onlyThePortStopsAStep : Obligations.OnlyThePortStopsAStep := by
  unfold Obligations.OnlyThePortStopsAStep
  intro s f
  obtain ⟨hn, e⟩ | ⟨u, hu, e⟩ := step_cases s
  · simp [hn, e]
  · rw [e, trapEntry_fault_iff, hu]
    exact ⟨fun h => ⟨u, rfl, h⟩, fun ⟨v, hv, h⟩ => Option.some.inj hv ▸ h⟩

/-- A port that admits every request refuses none of a list. -/
theorem firstRefusal_eq_none {p : Platform} (h : ∀ k a, portRefusal p k a = none) (rs : List PortRequest) :
    firstRefusal p rs = none := by
  refine List.findSome?_eq_none_iff.mpr fun r _ => ?_
  cases r <;> exact h _ _

/-- Settles O58: where nothing is refused no instruction stops, and a trap that stops would have had a request refused. -/
theorem stepIsTotalWhereThePortAdmits : Obligations.StepIsTotalWhereThePortAdmits := by
  unfold Obligations.StepIsTotalWhereThePortAdmits
  rintro s ⟨hdata, hfetch⟩
  refine ⟨fun i => ⟨_, exec_of_admitted (firstRefusal_eq_none hdata _)⟩, ?_⟩
  obtain ⟨-, e⟩ | ⟨u, hu, e⟩ := step_cases s
  · exact ⟨s, e⟩
  · obtain ⟨-, hplat, -⟩ := nextTrap_keeps hu
    rw [e]
    obtain ⟨i, -, -, -, e⟩ | ⟨r, -, -, -, e⟩ | ⟨c, -, -, e⟩ | ⟨f, ⟨-, hf | ⟨-, i, -, hr⟩⟩, -⟩ := trapEntry_cases u
    · exact ⟨_, e⟩
    · exact ⟨_, e⟩
    · exact ⟨_, e⟩
    · rw [hplat, hfetch] at hf
      cases hf
    · rw [hplat, firstRefusal_eq_none hdata] at hr
      cases hr

end Sys2Proof.Machine

/-! ## The boundary and the step (spec/60_exceptions.md)

Each statement is a reading of the next states of `trapEntry_next_cases`. -/

namespace Sys2Proof.Machine

open Sys2Proof

/-! ### A trap presented -/

/-- The next state of a trap presented. -/
theorem trapEntry_of_step_dispatch {s t : State} (hb : s.boundary = .dispatch) (h : step s = .next t) :
    trapEntry s = .next t :=
  (step_dispatch hb).symm.trans h

/-- Settles O51: a completed instruction resumes, and the other two next states are one call on the frame as it was. -/
theorem trapResumesOrCallsOneHandler : Obligations.TrapResumesOrCallsOneHandler := by
  unfold Obligations.TrapResumesOrCallsOneHandler
  intro s t hb h
  obtain ⟨i, hc, -, -, rfl⟩ | ⟨r, -, -, -, rfl⟩ | ⟨c, -, -, rfl⟩ :=
    trapEntry_next_cases (trapEntry_of_step_dispatch hb h)
  · exact .inl ⟨rfl, rfl, hc⟩
  · exact .inr ⟨_, rfl, by simp, rfl, rfl, rfl, rfl⟩
  · exact .inr ⟨c, rfl, by simp, rfl, rfl, rfl, rfl⟩

/-- `CTX_VIEW` lists the parts of the frame in the platform's order. -/
theorem ctxView_fst (s : State) : s.ctxView.map Prod.fst = s.plat.ctxView := by
  rw [State.ctxView, List.map_map]
  exact List.map_id _

/-- `CTX_VIEW` shows each part with its value in the frame. -/
theorem eq_frameItem_of_mem_ctxView {s : State} {i : FrameItem} {v : Word} (h : (i, v) ∈ s.ctxView) :
    v = s.frameItem i := by
  obtain ⟨j, -, hj⟩ := List.mem_map.mp h
  obtain ⟨rfl, rfl⟩ := Prod.mk.inj hj
  rfl

/-- Settles O47: whichever trap calls the exception handler, it shows `CTX_VIEW` of the frame as it was. -/
theorem handlerSeesTheContextView : Obligations.HandlerSeesTheContextView := by
  unfold Obligations.HandlerSeesTheContextView
  intro s t view hb h hcall
  have hview : view = s.ctxView := by
    obtain ⟨i, -, -, -, rfl⟩ | ⟨r, -, -, -, rfl⟩ | ⟨c, -, hv, rfl⟩ :=
      trapEntry_next_cases (trapEntry_of_step_dispatch hb h)
    · cases hcall
    · cases hcall
      rfl
    · exact hv view (Boundary.forward.inj hcall)
  subst hview
  exact ⟨ctxView_fst s, fun i v hm => eq_frameItem_of_mem_ctxView hm, fun v hm => eq_frameItem_of_mem_ctxView hm⟩

/-- Settles O50: an interrupt is forwarded from the state just entered. -/
theorem interruptLeavesFrameAndRes : Obligations.InterruptLeavesFrameAndRes := by
  unfold Obligations.InterruptLeavesFrameAndRes
  intro s t hb hi h
  have hstep : step s = .next s.enter.forwardInterrupt := (step_dispatch hb).trans (trapEntry_interrupt hi)
  obtain rfl := Host.Outcome.next.inj (h.symm.trans hstep)
  exact ⟨rfl, rfl, rfl, rfl, rfl, rfl⟩

/-- Settles O45: only a completed instruction answers `Handled`, and its trap advances `pc`; a failing SC completes
whatever the port admits. -/
theorem handledWordAdvancesPc : Obligations.HandledWordAdvancesPc := by
  unfold Obligations.HandledWordAdvancesPc
  refine ⟨fun s t hb h hr => ?_, fun s rd rs1 rs2 hb hc hf hd hm => ?_⟩
  · obtain ⟨i, -, -, -, rfl⟩ | ⟨r, -, -, -, rfl⟩ | ⟨c, -, -, rfl⟩ :=
      trapEntry_next_cases (trapEntry_of_step_dispatch hb h)
    · exact ⟨rfl, BitVec.toNat_add _ _⟩
    · simp at hr
    · simp at hr
  · have hstep : step s = resumeAfter s.pc (.next (scFailed rd (presented s))) := by
      rw [step_dispatch hb, trapEntry_of_ok hc hf hd, exec_sc_of_mismatch (s := presented s) hm]
    exact ⟨_, hstep, rfl, rfl, reg_setReg_same _ _ _, rfl⟩

/-! ### Which trap comes next -/

/-- The illegal-instruction trap at `pc`. -/
def State.illegalTrap (s : State) : State := { s with cause := illegalCause s.plat, boundary := .dispatch }

/-- A state in which that trap is presented is its own. -/
theorem illegalTrap_eq_self {s : State} (hb : s.boundary = .dispatch) (hc : s.cause = illegalCause s.plat) :
    s.illegalTrap = s := by
  simp [State.illegalTrap, ← hb, ← hc]

/-- An atomic word can be fetched at `pc` when the fetch is admitted and the word is atomic. -/
theorem atomicAtPc_iff (s : State) :
    s.atomicAtPc = true ↔ fetchRefusal s.plat s.pc = none ∧ isAtomic (s.wordAt s.pc) = true := by
  obtain ⟨hf, e⟩ | ⟨f, hf, e⟩ := fetch_cases s <;> simp [State.atomicAtPc, hf, e]

/-- After `Resume` with no move of the host left, an atomic word at `pc` is the next trap. -/
theorem step_resume_atomic {s : State} (hb : s.boundary = .resume) (hh : s.host = [])
    (hf : fetchRefusal s.plat s.pc = none) (ha : isAtomic (s.wordAt s.pc) = true) : step s = trapEntry s.illegalTrap := by
  have hat : s.atomicAtPc = true := (atomicAtPc_iff s).mpr ⟨hf, ha⟩
  simp [step, State.nextTrap, hb, hh, hat, State.illegalTrap]

/-- Without a next trap the unit waits. -/
theorem step_of_nextTrap_none {s : State} (h : s.nextTrap = none) : step s = .next s := by
  simp [step, h]

/-- Settles O52: the cases of the next trap, by the boundary's state and the host's list. -/
theorem unitWaitsToBeInvoked : Obligations.UnitWaitsToBeInvoked := by
  unfold Obligations.UnitWaitsToBeInvoked
  refine ⟨fun s hb hh => step_of_nextTrap_none ?_, fun s hb hh => ⟨fun hna => ?_, step_resume_atomic hb hh⟩,
    fun s t rest hb hh => ?_⟩
  · obtain hb | ⟨c, hb⟩ := hb <;> simp [State.nextTrap, hb, hh]
  · have hat : ¬ s.atomicAtPc = true := fun h => by
      obtain ⟨hf, ha⟩ := (atomicAtPc_iff s).mp h
      simp [hna hf] at ha
    have hnone : s.nextTrap = none := by simp [State.nextTrap, hb, hh, hat]
    exact ⟨hnone, step_of_nextTrap_none hnone⟩
  · cases hs : s.boundary with
    | dispatch => exact absurd hs hb
    | waiting => simp [step, State.nextTrap, hs, hh]
    | resume => simp [step, State.nextTrap, hs, hh]
    | forward c => simp [step, State.nextTrap, hs, hh]

/-- Settles O44: in both cases the step is the illegal-instruction trap at `pc`, which presents the word in
`fetchedHere`. -/
theorem stepRunsTheDecodedInstruction : Obligations.StepRunsTheDecodedInstruction := by
  unfold Obligations.StepRunsTheDecodedInstruction
  intro s i hs hf hd
  obtain ⟨ha, -, -⟩ := decodeWord_eq_ok_iff.mp hd
  have hstep : step s = trapEntry s.illegalTrap := by
    obtain ⟨hb, hc⟩ | ⟨hb, hh⟩ := hs
    · rw [step_dispatch hb, illegalTrap_eq_self hb hc]
    · exact step_resume_atomic hb hh hf ha
  rw [hstep]
  exact trapEntry_of_ok (u := s.illegalTrap) rfl hf hd

/-! ### A word placed at `pc` -/

/-- Placing a word at `pc`, its number read back. -/
theorem withFetchWord_toNat (s : State) (v : Word) :
    s.withFetchWord 32 v.toNat = (s.setMem (s.mem.storeWord s.plat.endian s.pc v)).illegalTrap := by
  have hv : BitVec.ofNat 32 (v.toNat % 2 ^ 32) = v := by
    rw [Nat.mod_eq_of_lt v.isLt, BitVec.ofNat_toNat, BitVec.setWidth_eq]
  rw [State.withFetchWord, hv]
  rfl

/-- A word stored is the word there. -/
theorem wordAt_storeWord {s : State} (hw : s.mem.wf = true) (a v : Word) :
    (s.setMem (s.mem.storeWord s.plat.endian a v)).wordAt a = v :=
  loadWord_storeWord_same hw _ _ _

/-- Settles O53: the word stored at `pc` is the word there, and the trap on it is presented. -/
theorem fetchSeesTheWordInMemory : Obligations.FetchSeesTheWordInMemory := by
  unfold Obligations.FetchSeesTheWordInMemory
  intro s v hw hf
  have hload := wordAt_storeWord hw s.pc v
  have hword : (s.withFetchWord 32 v.toNat).wordAt s.pc = v := by rw [withFetchWord_toNat]; exact hload
  refine ⟨?_, fun i hd => ?_, fun r hd => ?_⟩
  · obtain ⟨-, e⟩ | ⟨f, hf', -⟩ := fetch_cases (s.setMem (s.mem.storeWord s.plat.endian s.pc v))
    · rw [setMem_pc, hload] at e
      exact ⟨_, e⟩
    · cases hf.symm.trans hf'
  · rw [← hword] at hd
    exact stepRunsTheDecodedInstruction _ i (.inl ⟨rfl, rfl⟩) hf hd
  · rw [← hword] at hd
    exact ⟨_, step_of_unhandled (s := s.withFetchWord 32 v.toNat) rfl rfl hf hd, rfl⟩

/-! ### Requests -/

/-- Settles O40: the tables of an instruction's requests, no request of a refused word, and the fetch in front of them in
a trap. -/
theorem requestsAreThoseOfTheTable : Obligations.RequestsAreThoseOfTheTable := by
  unfold Obligations.RequestsAreThoseOfTheTable
  refine ⟨fun i s t h => ?_, fun w r s t hd h => ?_, fun s t hb hc h => ?_⟩
  · rw [exec_next_eq h, execDone_port]
  · obtain rfl : s.setResult (.unhandled r) = t := Host.Outcome.next.inj ((unitStep_of_error hd s).symm.trans h)
    exact setResult_port s _
  · obtain ⟨i, -, -, hd, rfl⟩ | ⟨r, -, -, hd, rfl⟩ | ⟨c, hne, -, -⟩ :=
      trapEntry_next_cases (trapEntry_of_step_dispatch hb h)
    · refine ⟨fun j hj => ?_, fun r hr => ?_⟩
      · rw [Except.ok.inj (hj.symm.trans hd), trapDone_port]
      · cases hd.symm.trans hr
    · refine ⟨fun j hj => ?_, fun _ _ => rfl⟩
      cases hd.symm.trans hj
    · exact absurd hc hne

end Sys2Proof.Machine

/-! ## The memory port (spec/20_memory.md)

The requests the port admits, the bytes of a word, and a word read back. -/

namespace Sys2Proof.Machine

open Sys2Proof

/-! ### Admission -/

/-- A data address that is a multiple of 4, or split by the policy, is refused by the regions alone. -/
theorem portRefusal_of_passes {p : Platform} {a : Word} (h : a.toNat % 4 = 0 ∨ p.misaligned = .bytewise)
    (k : AccessKind) : portRefusal p k a = if admitsWord p k a then none else some (.notAdmitted k a) := by
  simp [portRefusal, aligned, h]

/-- Any other data address is refused by the policy. -/
theorem portRefusal_of_misaligned {p : Platform} {a : Word} (ha : a.toNat % 4 ≠ 0) (hp : p.misaligned ≠ .bytewise)
    (k : AccessKind) :
    portRefusal p k a = some (if p.misaligned = .trap then .nestedTrap k a else .dataMisaligned k a) := by
  simp only [portRefusal, aligned, beq_iff_eq, ha, hp, Bool.or_eq_true, or_self, if_false]
  split <;> rfl

/-- A fetch address that is a multiple of 4, or split by the policy, is refused by the regions alone. -/
theorem fetchRefusal_of_passes {p : Platform} {pc : Word} (h : pc.toNat % 4 = 0 ∨ p.fetch = .bytewise) :
    fetchRefusal p pc = if admitsWord p .read pc then none else some (.notAdmitted .read pc) := by
  simp [fetchRefusal, aligned, h]

/-- Any other fetch address is refused by the policy. -/
theorem fetchRefusal_of_misaligned {p : Platform} {pc : Word} (ha : pc.toNat % 4 ≠ 0) (hp : p.fetch ≠ .bytewise) :
    fetchRefusal p pc = some (.fetchMisaligned pc) := by
  simp [fetchRefusal, aligned, ha, hp]

/-- The data requests that are admitted. -/
theorem portRefusal_eq_none_iff (p : Platform) (k : AccessKind) (a : Word) :
    portRefusal p k a = none ↔ (a.toNat % 4 = 0 ∨ p.misaligned = .bytewise) ∧ InRegions p k a := by
  rw [← admitsWord_iff_inRegions]
  by_cases h : a.toNat % 4 = 0 ∨ p.misaligned = .bytewise
  · simp [portRefusal_of_passes h, h]
  · obtain ⟨ha, hp⟩ := not_or.mp h
    simp [portRefusal_of_misaligned ha hp, h]

/-- The fetches that are admitted. -/
theorem fetchRefusal_eq_none_iff (p : Platform) (pc : Word) :
    fetchRefusal p pc = none ↔ (pc.toNat % 4 = 0 ∨ p.fetch = .bytewise) ∧ InRegions p .read pc := by
  rw [← admitsWord_iff_inRegions]
  by_cases h : pc.toNat % 4 = 0 ∨ p.fetch = .bytewise
  · simp [fetchRefusal_of_passes h, h]
  · obtain ⟨ha, hp⟩ := not_or.mp h
    simp [fetchRefusal_of_misaligned ha hp, h]

/-- Settles O43: an address that passes the policy is refused by the regions alone, any other by the policy; a refused
fetch stops the trap. -/
theorem portAdmitsByPolicyAndRegion : Obligations.PortAdmitsByPolicyAndRegion := by
  unfold Obligations.PortAdmitsByPolicyAndRegion
  refine ⟨fun p k a => ⟨portRefusal_eq_none_iff p k a, fun h hr => ?_, fun ha hp => ?_, fun ha hp => ?_⟩,
    fun p pc => ⟨fetchRefusal_eq_none_iff p pc, fun h hr => ?_, fun ha hp => ?_⟩,
    fun s f hb hc hf => (step_dispatch hb).trans (trapEntry_fetchFault hc hf)⟩
  · rw [← admitsWord_iff_inRegions] at hr
    rw [portRefusal_of_passes h, if_neg hr]
  · simp [portRefusal_of_misaligned ha, hp]
  · simp [portRefusal_of_misaligned ha, hp]
  · rw [← admitsWord_iff_inRegions] at hr
    rw [fetchRefusal_of_passes h, if_neg hr]
  · simp [fetchRefusal_of_misaligned ha, hp]

/-! ### Words and bytes -/

/-- The bytes of four bytes put together. -/
theorem byteOf_append (b0 b1 b2 b3 : Byte) :
    byteOf (b3 ++ b2 ++ b1 ++ b0) 0 = b0 ∧ byteOf (b3 ++ b2 ++ b1 ++ b0) 1 = b1 ∧
      byteOf (b3 ++ b2 ++ b1 ++ b0) 2 = b2 ∧ byteOf (b3 ++ b2 ++ b1 ++ b0) 3 = b3 := by
  have h0 := b0.isLt
  have h1 := b1.isLt
  have h2 := b2.isLt
  have h3 := b3.isLt
  refine ⟨?_, ?_, ?_, ?_⟩ <;> apply BitVec.eq_of_toNat_eq <;>
    simp only [byteOf, BitVec.extractLsb'_toNat, toNat_append_add, Nat.shiftRight_eq_div_pow] <;> omega

/-- The bytes of a word loaded, in either byte order. -/
theorem byteOf_loadWord (m : Memory) (a : Word) {k : Nat} (hk : k < 4) :
    byteOf (m.loadWord .little a) k = m.read (a + BitVec.ofNat 32 k) ∧
      byteOf (m.loadWord .big a) (3 - k) = m.read (a + BitVec.ofNat 32 k) := by
  obtain ⟨l0, l1, l2, l3⟩ := byteOf_append (m.read a) (m.read (a + 1)) (m.read (a + 2)) (m.read (a + 3))
  obtain ⟨g3, g2, g1, g0⟩ := byteOf_append (m.read (a + 3)) (m.read (a + 2)) (m.read (a + 1)) (m.read a)
  have hk' : k = 0 ∨ k = 1 ∨ k = 2 ∨ k = 3 := by omega
  obtain rfl | rfl | rfl | rfl := hk'
  · rw [BitVec.add_zero]
    exact ⟨l0, g0⟩
  · exact ⟨l1, g1⟩
  · exact ⟨l2, g2⟩
  · exact ⟨l3, g3⟩

/-- The bytes of a word stored, in either byte order: those of the word loaded from there. -/
theorem read_storeWord {m : Memory} (hw : m.wf = true) (a v : Word) {k : Nat} (hk : k < 4) :
    (m.storeWord .little a v).read (a + BitVec.ofNat 32 k) = byteOf v k ∧
      (m.storeWord .big a v).read (a + BitVec.ofNat 32 k) = byteOf v (3 - k) := by
  obtain ⟨hl, -⟩ := byteOf_loadWord (m.storeWord .little a v) a hk
  obtain ⟨-, hb⟩ := byteOf_loadWord (m.storeWord .big a v) a hk
  rw [loadWord_storeWord_same hw] at hl hb
  exact ⟨hl.symm, hb.symm⟩

/-- Settles O41: the bytes of a word loaded, and of a word stored. -/
theorem bytesOfAWordInOrder : Obligations.BytesOfAWordInOrder := by
  unfold Obligations.BytesOfAWordInOrder
  intro m a v hw k hk
  obtain ⟨hloadl, hloadb⟩ := byteOf_loadWord m a hk
  obtain ⟨hstorel, hstoreb⟩ := read_storeWord hw a v hk
  exact ⟨hloadl, hstorel, hloadb, hstoreb⟩

/-- An admitted write stores the word and records the request. -/
theorem memWrite_of_admitted {s : State} {a : Word} (h : Admitted s .write a) (v : Word) :
    s.memWrite a v = .ok ((s.setMem (s.mem.storeWord s.plat.endian a v)).logPort (.write a v)) := by
  obtain ⟨-, e⟩ | ⟨f, hf, -⟩ := memWrite_cases s a v
  · exact e
  · cases h.symm.trans hf

/-- An admitted read answers the word and records the request. -/
theorem memRead_of_admitted {s : State} {a : Word} (h : Admitted s .read a) :
    s.memRead a = .ok (s.wordAt a, s.logPort (.read a)) := by
  obtain ⟨-, e⟩ | ⟨f, hf, -⟩ := memRead_cases s a
  · exact e
  · cases h.symm.trans hf

/-- Settles O42: the state after the write holds the word, and `RES` has no part in it. -/
theorem readReturnsTheWordWritten : Obligations.ReadReturnsTheWordWritten := by
  unfold Obligations.ReadReturnsTheWordWritten
  intro s a v hw ha
  refine ⟨_, memWrite_of_admitted ha v, rfl, fun b hb => read_storeWord_other _ _ _ _ hb, fun hr => ?_,
    fun r => memWrite_of_admitted (s := s.setRes r) ha v⟩
  have hread := memRead_of_admitted (s := (s.setMem (s.mem.storeWord s.plat.endian a v)).logPort (.write a v)) hr
  exact ⟨_, hread.trans (congrArg (fun w => Except.ok (w, _)) (wordAt_storeWord hw a v)), rfl, rfl⟩

end Sys2Proof.Machine

/-! ## Load-reserved and store-conditional, effect and progress (spec/41_lr_sc.md) -/

namespace Sys2Proof.Machine

open Sys2Proof

/-! ### LR -/

/-- LR completes with `lrDone` where the port admits its read. -/
theorem exec_lr_of_admitted {rs1 : RegIdx} {s : State} (ha : Admitted s .read (s.reg rs1)) (rd : RegIdx) :
    exec (.lr rd rs1) s = .next (lrDone rd rs1 s) := by
  obtain ⟨-, e⟩ | ⟨f, hf, -⟩ := execLr_cases rd rs1 s
  · exact e
  · cases ha.symm.trans hf

/-- LR stops with the fault of its read. -/
theorem exec_lr_of_refused {rs1 : RegIdx} {s : State} {f : Fault} (hf : portRefusal s.plat .read (s.reg rs1) = some f)
    (rd : RegIdx) : exec (.lr rd rs1) s = .fault f :=
  exec_of_refused (by simp [firstRefusal, dataRequests, PortRequest.refusal, hf])

/-- Settles O12: the words are those of O4's table, and `lrDone` is the state after. -/
theorem lrReservesAndLoads : Obligations.LrReservesAndLoads := by
  unfold Obligations.LrReservesAndLoads
  refine ⟨fun w h => (maskedWordSelectsTheOperation w .lr).2 h, fun rd rs1 s =>
    ⟨fun ha => ?_, fun e he => exec_lr_of_refused he rd⟩⟩
  have h := exec_lr_of_admitted ha rd
  exact ⟨_, h, rfl, reg_setReg_same _ _ _, fun _ => rfl, rfl, frame_of_exec_next h⟩

/-! ### SC -/

@[simp] theorem scDone_res (rd rs2 : RegIdx) (s : State) : (scDone rd rs2 s).res = 0#32 := rfl

/-- SC on a match stops with the fault of its write. -/
theorem exec_sc_of_refused {rs1 : RegIdx} {s : State} {f : Fault} (hm : s.reg rs1 = s.res)
    (hf : portRefusal s.plat .write s.res = some f) (rd rs2 : RegIdx) : exec (.sc rd rs1 rs2) s = .fault f :=
  exec_of_refused (by simp [firstRefusal, dataRequests, PortRequest.refusal, hm, hf])

/-- Settles O13: `scDone` is the state after, and the address is `RES`. -/
theorem scOnMatchStoresAndClears : Obligations.ScOnMatchStoresAndClears := by
  unfold Obligations.ScOnMatchStoresAndClears
  intro rd rs1 rs2 s hm
  refine ⟨fun hw ha => ?_, fun e he => exec_sc_of_refused hm (hm ▸ he) rd rs2⟩
  have h := exec_sc_of_match hm (hm ▸ ha) rd rs2
  rw [hm]
  exact ⟨_, h, by simp, wordAt_scDone hw rd rs2, memSameOutside_scDone rd rs2 s, rfl, frame_of_exec_next h⟩

/-- Settles O14: `scFailed` is the state after. -/
theorem scOnMismatchOnlyReports : Obligations.ScOnMismatchOnlyReports := by
  unfold Obligations.ScOnMismatchOnlyReports
  intro rd rs1 rs2 s hm
  have h := exec_sc_of_mismatch hm rd rs2
  exact ⟨_, h, by simp, fun _ => rfl, rfl, rfl, frame_of_exec_next h⟩

/-- Settles O17: a non-zero distance from the reservation is a mismatch. -/
theorem scComparesAllAddressBits : Obligations.ScComparesAllAddressBits := by
  unfold Obligations.ScComparesAllAddressBits
  refine fun rd rs1 rs2 s t h => ⟨fun k hk haddr => ?_, fun hm => ?_⟩
  · have hne : s.reg rs1 ≠ s.res := fun e => hk (by simpa [e] using haddr)
    obtain rfl := eq_scFailed_of_exec_sc hne h
    exact ⟨by simp, rfl, fun _ => rfl⟩
  · obtain rfl := eq_scDone_of_exec_sc hm h
    exact ⟨by simp, rfl⟩

/-- Settles O18: the second LR's address is `RES`, and after the SC to it `RES` is 0. -/
theorem secondLrReplacesTheReservation : Obligations.SecondLrReplacesTheReservation := by
  unfold Obligations.SecondLrReplacesTheReservation
  intro d1 ra d2 rb d3 r3 v3 s s1 s2 hlr1 hlr2
  have hres : s2.res = s1.reg rb := exec_next_res hlr2
  rw [← hres]
  refine ⟨fun hne hr3 => ⟨_, exec_sc_of_mismatch (hr3 ▸ hne) d3 v3, by simp⟩, fun hr3 ha => ?_⟩
  refine ⟨_, exec_sc_of_match hr3 ha d3 v3, by simp, fun d4 r4 v4 hr4 hnz => ?_⟩
  have hne : (scDone d3 v3 s2).reg r4 ≠ (scDone d3 v3 s2).res := by rwa [hr4, scDone_res]
  exact ⟨_, exec_sc_of_mismatch hne d4 v4, by simp⟩

/-- Settles O23: against `RES` 0 the address 0 is a match, and any other a mismatch. -/
theorem addressZeroWithoutAReservation : Obligations.AddressZeroWithoutAReservation := by
  unfold Obligations.AddressZeroWithoutAReservation
  refine ⟨fun rd rs1 rs2 s hres haddr hw ha => ?_, fun rd rs1 s t haddr h => (exec_next_res h).trans haddr,
    fun rd rs1 rs2 s hres haddr => ?_⟩
  · rw [← hres] at haddr ha ⊢
    exact ⟨_, exec_sc_of_match haddr ha rd rs2, by simp [hres], wordAt_scDone hw rd rs2, by simp [hres]⟩
  · rw [← hres] at haddr
    exact ⟨_, exec_sc_of_mismatch haddr rd rs2, by simp, fun _ => rfl, hres⟩

/-- Settles O24: the LR reserves the scratch word, so the SC to it is a match. -/
theorem scratchPairDropsTheReservation : Obligations.ScratchPairDropsTheReservation := by
  unfold Obligations.ScratchPairDropsTheReservation
  intro d1 r1 d2 r2 v2 s s1 s2 hlr hr2 hsc
  have hm : s1.reg r2 = s1.res := hr2.trans (exec_next_res hlr).symm
  rw [eq_scDone_of_exec_sc hm hsc, scDone_res]

/-! ### The host's moves and a quiet stretch -/

/-- Settles O21: the lists of slots and of bytes leave what they do not name, and nothing writes `RES`. -/
theorem hostMovesKeepTheReservation : Obligations.HostMovesKeepTheReservation := by
  unfold Obligations.HostMovesKeepTheReservation
  intro s t
  obtain ⟨hres, -, -, hmem⟩ := hostTrap_fields s t
  refine ⟨hres, rfl, fun r hr => reg_setRegs_other t.regs s r hr, fun b hb => ?_, fun hp => ?_, fun p hp => ?_⟩
  · rw [hmem]
    exact read_writeBytes_other _ _ _ hb
  · simp [State.hostTrap, hp]
  · simp [State.hostTrap, hp]

/-- A quiet word that decodes leaves a reservation on `a` alone. -/
theorem resAfter_of_quietWord {a : Word} {w : IWord} {u : State} {i : Instr} (hq : quietWord a w u)
    (hd : decodeWord w = .ok i) (hres : u.res = a) : resAfter i u = u.res := by
  by_contra hne
  obtain ⟨rd, rs1, rfl, -⟩ | ⟨rd, rs1, rs2, rfl, hm, -⟩ := lr_or_sc_of_resAfter_ne hne
  · simp [quietWord, hd] at hq
  · simp [quietWord, hd, hm, hres] at hq

/-- One quiet invocation keeps the reservation and the canonical form of memory. -/
theorem unitStep_keeps_of_quietWord {a : Word} {w : IWord} {u v : State} (hq : quietWord a w u)
    (h : unitStep w u = .next v) (hres : u.res = a) (hw : u.mem.wf = true) : v.res = a ∧ v.mem.wf = true := by
  cases hd : decodeWord w with
  | ok i =>
    have hexec : exec i u = .next v := (unitStep_of_ok hd u).symm.trans h
    exact ⟨(exec_next_res hexec).trans ((resAfter_of_quietWord hq hd hres).trans hres), wf_of_exec_next hexec hw⟩
  | error r =>
    obtain rfl : u.setResult (.unhandled r) = v := Host.Outcome.next.inj ((unitStep_of_error hd u).symm.trans h)
    exact ⟨hres, hw⟩

/-- A quiet stretch keeps the reservation and the canonical form of memory. -/
theorem Quiet.keeps {a : Word} {s u : State} (h : Quiet a s u) (hres : s.res = a) (hw : s.mem.wf = true) :
    u.res = a ∧ u.mem.wf = true := by
  induction h with
  | refl => exact ⟨hres, hw⟩
  | @host u t _ ih =>
    obtain ⟨hresu, hwu⟩ := ih
    obtain ⟨hr, -, -, hm⟩ := hostTrap_fields u t
    exact ⟨hr.trans hresu, hm ▸ wf_writeBytes _ hwu⟩
  | word w _ hq hstep ih =>
    obtain ⟨hresu, hwu⟩ := ih
    exact unitStep_keeps_of_quietWord hq hstep hresu hwu

/-- Settles O22: the LR reserves its address, the quiet stretch keeps it reserved, so the SC is a match. -/
theorem scAfterQuietStretchSucceeds : Obligations.ScAfterQuietStretchSucceeds := by
  unfold Obligations.ScAfterQuietStretchSucceeds
  intro rd rs1 rd' rs1' rs2' s s1 s2 hw hlr hquiet haddr ha
  obtain ⟨hres, hw2⟩ := hquiet.keeps (exec_next_res hlr) (wf_of_exec_next hlr hw)
  rw [← hres] at haddr ha ⊢
  exact ⟨_, exec_sc_of_match haddr ha rd' rs2', by simp, wordAt_scDone hw2 rd' rs2', rfl⟩

end Sys2Proof.Machine

/-! ## The atomic memory operations (spec/42_amo.md)

One statement for the common template; each AMO is the template with its combining function. -/

namespace Sys2Proof.Machine

open Sys2Proof

/-! ### The template -/

/-- After an AMO the word at its address is the combined one. -/
theorem wordAt_amoDone {s : State} (hw : s.mem.wf = true) (f : Word → Word → Word) (rd rs1 rs2 : RegIdx) :
    (amoDone f rd rs1 rs2 s).wordAt (s.reg rs1) = f (s.wordAt (s.reg rs1)) (s.reg rs2) :=
  loadWord_storeWord_same hw _ _ _

/-- An instruction that is the template with `f` has the effect of the rule, for `f` written in any way. -/
theorem amoEffect_of_template {mk : RegIdx → RegIdx → RegIdx → Instr} {f g : Word → Word → Word}
    (hmk : ∀ rd rs1 rs2 s, exec (mk rd rs1 rs2) s = amo f rd rs1 rs2 s) (hfg : ∀ old v, f old v = g old v) :
    AmoEffect mk g := by
  obtain rfl : f = g := funext₂ hfg
  intro rd rs1 rs2 s
  rw [hmk]
  obtain ⟨hr, hwr, e⟩ | ⟨x, hr, e⟩ | ⟨x, hr, hwr, e⟩ := amo_cases f rd rs1 rs2 s
  · refine ⟨fun hw _ _ => ⟨_, e, by simp [amoDone], wordAt_amoDone hw f rd rs1 rs2,
      fun b hb => read_storeWord_other _ _ _ _ hb, rfl, by simp [amoDone], ?_⟩, fun y hy => ?_, fun y _ hy => ?_⟩
    · exact ⟨fun r hrd => by simp [amoDone, hrd], rfl, rfl, rfl, rfl, rfl, rfl⟩
    · cases hr.symm.trans hy
    · cases hwr.symm.trans hy
  · refine ⟨fun _ hr' _ => ?_, fun y hy => ?_, fun y hr' _ => ?_⟩
    · cases hr.symm.trans hr'
    · rw [e, Option.some.inj (hr.symm.trans hy)]
    · cases hr.symm.trans hr'
  · refine ⟨fun _ _ hwr' => ?_, fun y hy => ?_, fun y _ hy => ?_⟩
    · cases hwr.symm.trans hwr'
    · cases hr.symm.trans hy
    · rw [e, Option.some.inj (hwr.symm.trans hy)]

/-! ### The combining functions in the words of the rules -/

/-- R91 and R101: the sum modulo `2^XLEN`. -/
theorem amoAddFn_eq (old v : Word) : amoAddFn old v = BitVec.ofNat 32 ((old.toNat + v.toNat) % 2 ^ 32) :=
  BitVec.eq_of_toNat_eq (by simp [amoAddFn])

/-- R95 and R102: the lesser in two's complement. -/
theorem amoMinFn_eq (old v : Word) : amoMinFn old v = BitVec.ofInt 32 (min old.toInt v.toInt) := by
  rw [amoMinFn, min_def, apply_ite (BitVec.ofInt 32), BitVec.ofInt_toInt, BitVec.ofInt_toInt]

/-- R96 and R102: the greater in two's complement. -/
theorem amoMaxFn_eq (old v : Word) : amoMaxFn old v = BitVec.ofInt 32 (max old.toInt v.toInt) := by
  rw [amoMaxFn, max_comm, max_def, apply_ite (BitVec.ofInt 32), BitVec.ofInt_toInt, BitVec.ofInt_toInt]

/-- R97 and R103: the lesser as unsigned values. -/
theorem amoMinuFn_eq (old v : Word) : amoMinuFn old v = BitVec.ofNat 32 (min old.toNat v.toNat) := by
  rw [amoMinuFn, min_def, apply_ite (BitVec.ofNat 32), BitVec.ofNat_toNat, BitVec.ofNat_toNat, BitVec.setWidth_eq,
    BitVec.setWidth_eq]

/-- R98 and R103: the greater as unsigned values. -/
theorem amoMaxuFn_eq (old v : Word) : amoMaxuFn old v = BitVec.ofNat 32 (max old.toNat v.toNat) := by
  rw [amoMaxuFn, max_comm, max_def, apply_ite (BitVec.ofNat 32), BitVec.ofNat_toNat, BitVec.ofNat_toNat,
    BitVec.setWidth_eq, BitVec.setWidth_eq]

/-! ### The nine instructions -/

/-- Settles O25: the template with AMOSWAP's function. -/
theorem amoswapStoresTheOperand : Obligations.AmoswapStoresTheOperand :=
  amoEffect_of_template (f := amoSwapFn) (fun _ _ _ _ => rfl) fun _ _ => rfl

/-- Settles O26: the template with addition. -/
theorem amoaddStoresTheSumModulo : Obligations.AmoaddStoresTheSumModulo :=
  amoEffect_of_template (fun _ _ _ _ => rfl) amoAddFn_eq

/-- Settles O27: the template with the exclusive or. -/
theorem amoxorStoresTheExclusiveOr : Obligations.AmoxorStoresTheExclusiveOr :=
  amoEffect_of_template (f := amoXorFn) (fun _ _ _ _ => rfl) fun _ _ => rfl

/-- Settles O28: the template with the conjunction. -/
theorem amoandStoresTheConjunction : Obligations.AmoandStoresTheConjunction :=
  amoEffect_of_template (f := amoAndFn) (fun _ _ _ _ => rfl) fun _ _ => rfl

/-- Settles O29: the template with the disjunction. -/
theorem amoorStoresTheDisjunction : Obligations.AmoorStoresTheDisjunction :=
  amoEffect_of_template (f := amoOrFn) (fun _ _ _ _ => rfl) fun _ _ => rfl

/-- Settles O30: the template with the signed minimum. -/
theorem amominStoresTheSignedLesser : Obligations.AmominStoresTheSignedLesser :=
  amoEffect_of_template (fun _ _ _ _ => rfl) amoMinFn_eq

/-- Settles O31: the template with the signed maximum. -/
theorem amomaxStoresTheSignedGreater : Obligations.AmomaxStoresTheSignedGreater :=
  amoEffect_of_template (fun _ _ _ _ => rfl) amoMaxFn_eq

/-- Settles O32: the template with the unsigned minimum. -/
theorem amominuStoresTheUnsignedLesser : Obligations.AmominuStoresTheUnsignedLesser :=
  amoEffect_of_template (fun _ _ _ _ => rfl) amoMinuFn_eq

/-- Settles O33: the template with the unsigned maximum. -/
theorem amomaxuStoresTheUnsignedGreater : Obligations.AmomaxuStoresTheUnsignedGreater :=
  amoEffect_of_template (fun _ _ _ _ => rfl) amoMaxuFn_eq

/-! ### Signed and unsigned comparison -/

/-- Where the sign bits agree the two comparisons do; where they differ the two comparisons are opposite. -/
theorem toInt_le_iff (a b : Word) :
    (a.msb = b.msb → (a.toInt ≤ b.toInt ↔ a.toNat ≤ b.toNat)) ∧
      (a.msb ≠ b.msb → (a.toInt ≤ b.toInt ↔ ¬ a.toNat ≤ b.toNat)) := by
  have ha := a.isLt
  have hb := b.isLt
  simp only [BitVec.msb_eq_decide, BitVec.toInt_eq_toNat_cond, decide_eq_decide, ne_eq]
  constructor <;> intro h <;> split <;> split <;> omega

/-- Settles O35: equal sign bits give one comparison; different ones give opposite comparisons, of two words that
differ. -/
theorem signedAndUnsignedDifferBySignBits : Obligations.SignedAndUnsignedDifferBySignBits := by
  unfold Obligations.SignedAndUnsignedDifferBySignBits
  intro a b
  obtain ⟨hsame, hopp⟩ := toInt_le_iff a b
  obtain ⟨hsame', hopp'⟩ := toInt_le_iff b a
  by_cases h : a.msb = b.msb
  · simp [amoMinFn, amoMinuFn, amoMaxFn, amoMaxuFn, h, hsame h, hsame' h.symm]
  · have hne : a ≠ b := fun e => h (congrArg BitVec.msb e)
    simp only [amoMinFn, amoMinuFn, amoMaxFn, amoMaxuFn, ge_iff_le, hopp h, hopp' (Ne.symm h)]
    constructor
    · by_cases hle : a.toNat ≤ b.toNat <;> simp [h, hle, hne, hne.symm]
    · by_cases hle : b.toNat ≤ a.toNat <;> simp [h, hle, hne, hne.symm]

/-! ### AMOs and the reservation -/

/-- An AMO leaves `RES`, and neither its requests nor its effect depend on it. -/
theorem tables_setRes_of_isAmo {i : Instr} (hi : isAmo i = true) (s : State) (r : Word) :
    resAfter i s = s.res ∧ dataRequests i (s.setRes r) = dataRequests i s ∧
      execDone i (s.setRes r) = (execDone i s).setRes r := by
  cases i
  case lr rd rs1 => cases hi
  case sc rd rs1 rs2 => cases hi
  all_goals exact ⟨rfl, rfl, rfl⟩

/-- Settles O36: an AMO does not depend on `RES` and leaves it, so the SC after it meets a match. -/
theorem amoNeitherReadsNorWritesRes : Obligations.AmoNeitherReadsNorWritesRes := by
  unfold Obligations.AmoNeitherReadsNorWritesRes
  intro i s t hi h
  have htables := tables_setRes_of_isAmo hi s
  obtain ⟨hkept, -, -⟩ := htables s.res
  have hres : t.res = s.res := (exec_next_res h).trans hkept
  refine ⟨hres, fun r => ?_, fun rd rs1 rs2 haddr ha => ?_⟩
  · obtain ⟨-, hreq, hdone⟩ := htables r
    obtain ⟨hnext, -⟩ := exec_map (g := (State.setRes · r)) hreq rfl hdone
    exact hnext t h
  · rw [← hres] at haddr ha
    exact ⟨_, exec_sc_of_match haddr ha rd rs2, by simp⟩

end Sys2Proof.Machine

/-! ## Independence of `pc` and of the number of a slot (R75 of spec/40_decode_dispatch.md, R15 of spec/10_state.md) -/

namespace Sys2Proof.Machine

open Sys2Proof

/-- The effect of an instruction with another `pc` is the same but for `pc`. -/
theorem execDone_setPc (i : Instr) (s : State) (p : Word) : execDone i (s.setPc p) = (execDone i s).setPc p := by
  cases i <;> rfl

/-- The requests of an instruction do not depend on `pc`. -/
theorem dataRequests_setPc (i : Instr) (s : State) (p : Word) : dataRequests i (s.setPc p) = dataRequests i s := by
  cases i <;> rfl

/-- Settles O38: no table depends on `pc`, and a refused word sets the result only. -/
theorem unitNeverTouchesPc : Obligations.UnitNeverTouchesPc := by
  unfold Obligations.UnitNeverTouchesPc
  intro w s
  cases hd : decodeWord w with
  | ok i =>
    have hmap (p : Word) := exec_map (g := (State.setPc · p)) (dataRequests_setPc i s p) rfl (execDone_setPc i s p)
    simp only [unitStep_of_ok hd]
    exact ⟨fun t h => ⟨(frame_of_exec_next h).pc, fun p => (hmap p).1 t h⟩, fun f h p => (hmap p).2 f h⟩
  | error r =>
    simp only [unitStep_of_error hd]
    refine ⟨fun t h => ?_, fun f h => by cases h⟩
    obtain rfl := Host.Outcome.next.inj h
    exact ⟨rfl, fun _ => rfl⟩

/-- The tables of the exchanged instruction in the exchanged state are those of the instruction. -/
theorem tables_swapZero (k : RegIdx) (i : Instr) (s : State) :
    valueWritten (swapZeroInstr k i) (s.swapZero k) = valueWritten i s ∧
      resAfter (swapZeroInstr k i) (s.swapZero k) = resAfter i s ∧
      dataRequests (swapZeroInstr k i) (s.swapZero k) = dataRequests i s := by
  cases i <;>
    simp [swapZeroInstr, Instr.build, Instr.op, Instr.rd, Instr.rs1, Instr.rs2?, valueWritten, resAfter, dataRequests,
      amoRequests]

/-- The effect of the exchanged instruction in the exchanged state is the exchanged effect. -/
theorem execDone_swapZero (k : RegIdx) (i : Instr) (s : State) :
    execDone (swapZeroInstr k i) (s.swapZero k) = (execDone i s).swapZero k := by
  obtain ⟨hval, hres, hreq⟩ := tables_swapZero k i s
  have hrd : (swapZeroInstr k i).rd = swapZero k i.rd := build_rd _ _ _ _
  rw [execDone, hval, hres, hreq, hrd, setReg_swapZero]
  rfl

/-- Settles O34: every table carries over under the exchange; AMOADD on slot 0 alone is AMOADD with three equal fields. -/
theorem slotZeroIsAnOrdinarySlot : Obligations.SlotZeroIsAnOrdinarySlot := by
  unfold Obligations.SlotZeroIsAnOrdinarySlot
  refine ⟨fun s v => reg_setReg_same s 0 v, fun k i s => ?_, fun i s t hrd h => ?_, fun s hw hr hwr => ?_⟩
  · obtain ⟨-, -, hreq⟩ := tables_swapZero k i s
    exact exec_map (g := State.swapZero k) hreq rfl (execDone_swapZero k i s)
  · rw [exec_next_eq h, ← hrd]
    simp
  · have heffect : AmoEffect .amoadd amoAddFn := amoEffect_of_template (fun _ _ _ _ => rfl) fun _ _ => rfl
    obtain ⟨hdone, -, -⟩ := heffect 0 0 0 s
    obtain ⟨t, h, hreg, hword, -⟩ := hdone hw hr hwr
    exact ⟨t, h, hreg, hword⟩

end Sys2Proof.Machine
